-- ==== Sys2Proof/Word.lean ====
section
/-! DEFINITION. The word types of the block: the byte, the 16-bit field and the byte sequence (00_scope.md R9, R10). -/

namespace Sys2Proof

/-- A byte, 0..255 (R9). -/
abbrev Byte := BitVec 8

/-- A 16-bit unsigned field: opcode, block number or error code (R8, R10). -/
abbrev Half := BitVec 16

/-- `Bytes` of R9: a finite byte sequence, index 0 the first byte transmitted. -/
abbrev Bytes := List Byte

end Sys2Proof
end

