-- ==== Sys2Proof/Syntax.lean ====
section
/-! DEFINITION. Syntax: the instructions (one constructor per row of spec/opcode_table.json), the packet values they
encode and decode, the registers, the error kinds and reasons, and the actions of the host. -/

namespace Sys2Proof

/-- The rows of spec/opcode_table.json: seven command codes (30_encoding.md R80) and five wire opcodes (R75). No command
has an immediate or a register-number field (R81); the operands are the fixed named registers of R82. A wire row's
fields are the bytes of the packet that stands in `IN`. -/
inductive Instr where
  | encRrq    -- ENC.RRQ, CMD = 0x01 (R121)
  | encWrq    -- ENC.WRQ, CMD = 0x02 (R122)
  | encData   -- ENC.DATA, CMD = 0x03 (R123)
  | encAck    -- ENC.ACK, CMD = 0x04 (R124)
  | encError  -- ENC.ERROR, CMD = 0x05 (R125)
  | dec       -- DEC, CMD = 0x08 (R140)
  | maperr    -- MAPERR, CMD = 0x09 (R174)
  | wireRrq   -- wire opcode 1, ReadRequest (R144)
  | wireWrq   -- wire opcode 2, WriteRequest (R145)
  | wireData  -- wire opcode 3, Data (R146)
  | wireAck   -- wire opcode 4, Ack (R147)
  | wireError -- wire opcode 5, Error (R148)
  deriving DecidableEq, Repr

/-- Every instruction, in the table's order. -/
def Instr.all : List Instr :=
  [.encRrq, .encWrq, .encData, .encAck, .encError, .dec, .maperr,
   .wireRrq, .wireWrq, .wireData, .wireAck, .wireError]

/-- The five packet variants (10_state.md R24). -/
inductive Variant where
  | rrq | wrq | data | ack | error
  deriving DecidableEq, Repr

/-- The table row whose meaning is the variant's decoder (42_decode.md, heading). -/
def Variant.instr : Variant → Instr
  | .rrq => .wireRrq
  | .wrq => .wireWrq
  | .data => .wireData
  | .ack => .wireAck
  | .error => .wireError

/-- A packet value: one of five variants with its fields (R17, R24). -/
inductive Packet where
  | rrq (fname mode : Bytes)
  | wrq (fname mode : Bytes)
  | data (block : Half) (payload : Bytes)
  | ack (block : Half)
  | error (code : Half) (msg : Bytes)
  deriving DecidableEq, Repr

/-- The variant that tags a packet value (R24). -/
def Packet.variant : Packet → Variant
  | .rrq _ _ => .rrq
  | .wrq _ _ => .wrq
  | .data _ _ => .data
  | .ack _ => .ack
  | .error _ _ => .error

/-- The error kinds of 43_error_mapping.md R170, class 0 being the unclassified family (R171). -/
inductive ErrorKind where
  | unclassified | fileNotFound | accessViolation | diskFull
  | illegalOperation | unknownTransferId | fileExists | noSuchUser
  deriving DecidableEq, Repr

/-- The checks that the block reports (60_exceptions.md R203), in the table's order. Reasons 2 and 11 carry the value
their context text names (R204). Reason 0 is the host's and reason 15 is reserved: the block raises neither. -/
inductive Reason where
  | noData                     -- 1
  | unknownOpcode (op : Half)  -- 2
  | reqShort                   -- 3
  | fnameNoterm                -- 4
  | fnameBlank                 -- 5
  | modeNoterm                 -- 6
  | modeBlank                  -- 7
  | dataShort                  -- 8
  | ackLen                     -- 9
  | errLen                     -- 10
  | errCodeRange (code : Half) -- 11
  | msgNoterm                  -- 12
  | encEcodeRange              -- 13
  | encShortWrite              -- 14
  deriving DecidableEq, Repr

/-- The host-visible registers of 10_state.md R20, exactly these and no others. -/
inductive Reg where
  | cmd | status | inBuf | out
  | pvOp | pvFname | pvMode | pvBlock | pvPayload | pvEcode | pvMsg
  | evClass | evReason | evCtx
  deriving DecidableEq, Repr

/-- Every register, in R20's order. -/
def Reg.all : List Reg :=
  [.cmd, .status, .inBuf, .out, .pvOp, .pvFname, .pvMode, .pvBlock, .pvPayload, .pvEcode, .pvMsg,
   .evClass, .evReason, .evCtx]

/-- The value of a register, by the width R20 gives it. -/
inductive RegVal where
  | byte (v : Byte)
  | half (v : Half)
  | cls (v : BitVec 3)
  | reason (v : BitVec 4)
  | bytes (v : Bytes)
  deriving DecidableEq, Repr

/-- One action applied to the block from outside (R85, R238): a host write of a register R20 lets the host write, each
with a value of that register's type; the write of `CMD`, which starts a command (R57, R80); a host read; or the
platform's reset (70_reset_and_hazards.md R230). `STATUS` and `OUT` are read only, so no action writes them. -/
inductive Action where
  | writeCmd (code : Byte)
  | writeIn (b : Bytes)
  | writePvOp (v : Half)
  | writePvFname (b : Bytes)
  | writePvMode (b : Bytes)
  | writePvBlock (v : Half)
  | writePvPayload (b : Bytes)
  | writePvEcode (v : Half)
  | writePvMsg (b : Bytes)
  | writeEvClass (v : BitVec 3)
  | writeEvReason (v : BitVec 4)
  | writeEvCtx (b : Bytes)
  | read (r : Reg)
  | reset
  deriving DecidableEq, Repr

end Sys2Proof
end

