-- ==== Sys2Proof/Machine/State.lean ====
section
/-! DEFINITION. The state of one instance and of the host that drives it: the registers of 10_state.md R20, and the
model's own fields for the run of host actions (70_reset_and_hazards.md R238). Plain data. A register is an `Option`
because NONE is the spec's own register content (R13, R22), written by reset (R34) and by the invalidations of R29. -/

namespace Sys2Proof.Machine

/-- The packet-value registers PV (R24). -/
structure PacketValue where
  op      : Option Half
  fname   : Option Bytes
  mode    : Option Bytes
  block   : Option Half
  payload : Option Bytes
  ecode   : Option Half
  msg     : Option Bytes
  deriving DecidableEq, Repr

/-- The error-value registers EV (R28): class (3 bits), reason (4 bits), context. -/
structure ErrorValue where
  cls    : Option (BitVec 3)
  reason : Option (BitVec 4)
  ctx    : Option Bytes
  deriving DecidableEq, Repr

/-- What one host read showed. -/
structure Observation where
  reg   : Reg
  value : RegVal
  deriving DecidableEq, Repr

/-- The model faults of the spec (60_exceptions.md R210), which the model records and which stop nothing: a command that
faults ends, as every command does (70_reset_and_hazards.md R237). -/
inductive ModelFault where
  /-- R210: a command's operand register (30_encoding.md R82) holds NONE as it starts. Recorded by every command and by every
  variant decoder. -/
  | unsetOperand
  deriving DecidableEq, Repr

/-- The machine: the registers `CMD`, `STATUS`, `IN`, `OUT`, PV and EV of R20, then the model fault that the run
has recorded, if any (60_exceptions.md R210, 95_test_vectors.md Program 5; DEDUCED, log 15), then four fields of the model's own:
the actions still to be applied, in the order they take effect (R60, R62, R238), what the host has read so far, oldest
first, and the stream and the counter that each free value is drawn with (DESIGN CHOICE, log 4 and log 5). No command reads
these five, so an instance's stream is no identifier that a command can see (60_exceptions.md R216). A byte-sequence register
is the list of its bytes (DESIGN CHOICE, log 8). -/
structure State where
  cmd     : Option Byte
  status  : BitVec 8
  inBuf   : Option Bytes
  out     : Option Bytes
  pv      : PacketValue
  ev      : ErrorValue
  fault   : Option ModelFault
  pending : List Action
  reads   : List Observation
  stream  : Nat
  nfree   : Nat
  deriving DecidableEq, Repr

/-- Every PV register holds NONE. -/
def PacketValue.none : PacketValue := ⟨.none, .none, .none, .none, .none, .none, .none⟩

/-- Every EV register holds NONE. -/
def ErrorValue.none : ErrorValue := ⟨.none, .none, .none⟩

/-- The reset state (R34, R230): `STATUS = 0x00` and every other register NONE. No fault is recorded, no action is waiting, nothing has been
read and no free value has been drawn (the model's own fields: DESIGN CHOICE, log 4, log 5 and log 15). -/
def State.reset : State where
  cmd := .none
  status := 0x00
  inBuf := .none
  out := .none
  pv := .none
  ev := .none
  fault := .none
  pending := []
  reads := []
  stream := 0
  nfree := 0

/-- Why a step stops the machine. -/
inductive Fault where
  /-- R9, R12: an access to an index at or past the end of a byte sequence, which the spec says does not exist. Raised by
  DEC and the variant decoders; R149 says that no step of theirs makes one (DEDUCED, log 12). Safe. -/
  | outOfBounds
  deriving DecidableEq, Repr

/-- Why an action or an instruction has no step. -/
inductive Refusal where
  /-- Raised by `exec` for an instruction that has no meaning yet; no instruction is left so. Safe. -/
  | notModelled (mnemonic : String)
  /-- R23, R211: raised by a host write of a byte-sequence register with more than `BUF_MAX` bytes, which is not an
  action the host has. Safe. -/
  | overCapacity
  /-- R6: raised by an action addressed to an instance that does not exist (Machine/System.lean only). Safe. -/
  | noSuchInstance
  deriving DecidableEq, Repr

/-- The outcome of one step or of one instruction. -/
abbrev Result := Host.Outcome State Fault Refusal

end Sys2Proof.Machine
end

