-- ==== Sys2Proof/Machine/Flags.lean ====
section
/-! DEFINITION. `STATUS` (10_state.md R27): its fields, and the three values a command can leave there (60_exceptions.md
R200). There are no other flags. -/

namespace Sys2Proof.Machine

/-- `STATUS` from its fields: DONE is bit 0, ERR bit 1, ILLCMD bit 2; bits 7:3 are reserved and read as 0 (R27). -/
def mkStatus (done err illcmd : Bool) : BitVec 8 :=
  BitVec.ofNat 8 (done.toNat + 2 * err.toNat + 4 * illcmd.toNat)

/-- After a finish (R30). -/
def statusFinish : BitVec 8 := mkStatus true false false

/-- After a raise (R30). -/
def statusRaise : BitVec 8 := mkStatus true true false

/-- After an illegal command code (R83). -/
def statusIllegal : BitVec 8 := mkStatus true false true

/-- `STATUS.DONE`. -/
def statusDone (st : BitVec 8) : Bool := st.getLsbD 0

/-- `STATUS.ERR`. -/
def statusErr (st : BitVec 8) : Bool := st.getLsbD 1

/-- `STATUS.ILLCMD`. -/
def statusIllcmd (st : BitVec 8) : Bool := st.getLsbD 2

/-- The reserved field `STATUS[7:3]`. -/
def statusReserved (st : BitVec 8) : BitVec 5 := st.extractLsb' 3 5

end Sys2Proof.Machine
end

