-- ==== Sys2Proof/Config.lean ====
section
/-! DEFINITION. What one implementation fixes (00_scope.md R8) and the free values of the model. An `opaque` constant
has no body: no proof can see its value, so a theorem about it holds whatever it is. -/

namespace Sys2Proof

/-- How far `BUF_MAX` lies above the 516 bytes that R8 requires (DESIGN CHOICE, log 1). -/
opaque Config.bufExtra : Nat

/-- `BUF_MAX` (R8): the capacity in bytes of IN, OUT and every byte-sequence register; OPEN, at least 516. -/
def Config.bufMax : Nat := Config.bufExtra + 516

/-- `ERR_DECODE_MAX` (R8, 90_conflicts.md C1): the largest ErrorCode that DEC accepts. The legacy value 8 is not this
hardware's; the decoders of Machine/Decoder.lean take the bound as an argument, so that both values can be spoken of. -/
def Config.errDecodeMax : Nat := 7

/-- `ERR_ENCODE_MAX` (R8): the largest ErrorCode that ENC.ERROR accepts, fixed. -/
def Config.errEncodeMax : Nat := 7

/-- How far `INSTANCES` lies above the one instance that R8 requires (DESIGN CHOICE, log 1). -/
opaque Config.instancesExtra : Nat

/-- `INSTANCES` (R8, R216): the number of instances; OPEN, at least 1. -/
def Config.instances : Nat := Config.instancesExtra + 1

/-- The seven formatting rules of the named error kinds, which the spec leaves OPEN (R172, R173); Machine/Texts.lean's
`kindText` adds the constraints of R173 (DESIGN CHOICE, log 3). -/
opaque Config.kindTextRaw : BitVec 3 → Bytes → Bytes

/-- A 16-bit value spelled in sixteen bytes, none of them `0x00`, one for each bit; it serves `ReasonTexts` alone. -/
def bitSpelling (v : Half) : Bytes := (List.range 16).map fun i => if v.getLsbD i then 0x01 else 0x02

/-- One choice of texts that R204 allows; it serves `ReasonTexts` alone. -/
def plainTexts : Reason → Bytes
  | .noData => []
  | .unknownOpcode op => bitSpelling op
  | .reqShort => []
  | .fnameNoterm => []
  | .fnameBlank => []
  | .modeNoterm => []
  | .modeBlank => []
  | .dataShort => []
  | .ackLen => []
  | .errLen => []
  | .errCodeRange _ => []
  | .msgNoterm => []
  | .encEcodeRange => []
  | .encShortWrite => []

theorem bitSpelling_injective (v w : Half) (h : bitSpelling v = bitSpelling w) : v = w := by
  refine BitVec.eq_of_getLsbD_eq fun i hi => ?_
  have := List.map_inj_left.mp h i (List.mem_range.mpr hi)
  revert this
  cases v.getLsbD i <;> cases w.getLsbD i <;> simp

theorem zero_not_mem_plainTexts (r : Reason) : (0x00 : Byte) ∉ plainTexts r := by
  cases r with
  | unknownOpcode op =>
    simp only [plainTexts, bitSpelling, List.mem_map, not_exists, not_and]
    intro i _
    split <;> decide
  | _ => exact List.not_mem_nil

theorem plainTexts_fits (r : Reason) : (plainTexts r).length ≤ Config.bufMax := by
  cases r with
  | unknownOpcode op => exact (by simp [plainTexts, bitSpelling] : (plainTexts (.unknownOpcode op)).length ≤ 516).trans (Nat.le_add_left _ _)
  | _ => exact Nat.zero_le _

/-- The choices of `REASON_TEXT` that 60_exceptions.md R204 allows: a total function of the reason and its value, with
different texts for different unknown opcodes, no `0x00` in a text and no text longer than `BUF_MAX`; nothing more. The
values after `:=` only show Lean that such a choice exists: the choice of the model is `Config.reasonTexts`. -/
structure ReasonTexts where
  text : Reason → Bytes := plainTexts
  namesTheOpcode : ∀ op op' : Half, text (.unknownOpcode op) = text (.unknownOpcode op') → op = op' := by
    exact bitSpelling_injective
  noTerminator : ∀ r, (0x00 : Byte) ∉ text r := by exact zero_not_mem_plainTexts
  fits : ∀ r, (text r).length ≤ Config.bufMax := by exact plainTexts_fits
  deriving Inhabited

/-- `REASON_TEXT` (R8, R204, 92_eei_decisions.md D17): OPEN, any choice that R204 allows (DESIGN CHOICE, log 2). -/
opaque Config.reasonTexts : ReasonTexts

/-- What a host read of an 8-bit register holding NONE shows (R22, 93_implementation_defined.md H3), by the stream of the
instance, the register and the number of free values the instance has shown (DESIGN CHOICE, log 4). -/
opaque Config.freeByte : Nat → Reg → Nat → Byte

/-- The same of a 16-bit register (R22, H3; DESIGN CHOICE, log 4). -/
opaque Config.freeHalf : Nat → Reg → Nat → Half

/-- The same of EV.CLASS (R22, H3; DESIGN CHOICE, log 4). -/
opaque Config.freeClass : Nat → Reg → Nat → BitVec 3

/-- The same of EV.REASON (R22, H3; DESIGN CHOICE, log 4). -/
opaque Config.freeReason : Nat → Reg → Nat → BitVec 4

/-- The same of a byte-sequence register (R22, H3; DESIGN CHOICE, log 4), before it is cut to the capacity. -/
opaque Config.freeBytes : Nat → Reg → Nat → Bytes

end Sys2Proof
end

