-- ==== Sys2Proof/Decode.lean ====
section
/-! DEFINITION. The decoder and the encoder of the two instruction spaces of spec/opcode_table.json: the command word
written to `CMD` (30_encoding.md R80, R81) and the wire opcode that begins a packet (R70, R75), with the integer-field
primitives they are read and written by (40_field_primitives.md R100, R101; 00_scope.md R12). -/

namespace Sys2Proof

/-- `B[i..j)` (R9). -/
def slice (b : Bytes) (i j : Nat) : Bytes := (b.take j).drop i

/-- A byte sequence as one unsigned big-endian integer (R12, R52). -/
def bigEndian (b : Bytes) : Nat := b.foldl (fun acc x => acc * 256 + x.toNat) 0

/-- `MemRead(a, n)` over the byte sequence `b` (R12): defined only when `a + n <= |b|`; `none` where it is not. -/
def memRead (b : Bytes) (a n : Nat) : Option Nat :=
  if a + n ≤ b.length then some (bigEndian (slice b a (a + n))) else none

/-- `rd16(B, i)` (R11, R101): `B[i] * 256 + B[i+1]`, which is `MemRead(i, 2)`. -/
def rd16 (b : Bytes) (i : Nat) : Option Half := (memRead b i 2).map (BitVec.ofNat 16)

/-- `be16(v)` (R11, R100): `[v[15:8], v[7:0]]`. -/
def be16 (v : Half) : Bytes := [v.extractLsb' 8 8, v.extractLsb' 0 8]

/-- The two spaces an instruction's bits can stand in (the table's "space"). -/
inductive Space where
  | command  -- the register `CMD`, one byte
  | wire     -- the first two bytes of a packet
  deriving DecidableEq, Repr

/-- Why bytes are no instruction, by name. -/
inductive DecodeError where
  | noBytes                     -- the bytes end before the instruction does
  | illegalCommand (code : Byte) -- no command code of R80 (R83)
  | unknownOpcode (op : Half)    -- no wire opcode 1..5 (R76)
  deriving DecidableEq, Repr

/-- The command a `CMD` byte names, by the fields of R81: `CMD[7:4]` must be 0, `CMD[3]` is the group, `CMD[2:0]` the
selector; `none` for the illegal codes of R83. -/
def decodeCommand (c : Byte) : Option Instr :=
  if c.extractLsb' 4 4 = 0 then
    if c.getLsbD 3 then
      match (c.extractLsb' 0 3).toNat with
      | 0 => some .dec
      | 1 => some .maperr
      | _ => none
    else
      match (c.extractLsb' 0 3).toNat with
      | 1 => some .encRrq
      | 2 => some .encWrq
      | 3 => some .encData
      | 4 => some .encAck
      | 5 => some .encError
      | _ => none
  else none

/-- The variant a wire opcode selects (R75), matched on all 16 bits; `none` for the illegal opcodes of R76. -/
def decodeOpcode (op : Half) : Option Variant :=
  match op.toNat with
  | 1 => some .rrq
  | 2 => some .wrq
  | 3 => some .data
  | 4 => some .ack
  | 5 => some .error
  | _ => none

/-- The decoder, total on any bytes: the instruction at the head of `b` in the given space and the bytes after its
word, or the reason there is none. A packet's opcode word is big-endian (R52, R70). -/
def decode (sp : Space) (b : Bytes) : Except DecodeError (Instr × Bytes) :=
  match sp with
  | .command =>
    match b with
    | [] => .error .noBytes
    | c :: rest =>
      match decodeCommand c with
      | some i => .ok (i, rest)
      | none => .error (.illegalCommand c)
  | .wire =>
    match rd16 b 0 with
    | none => .error .noBytes
    | some op =>
      match decodeOpcode op with
      | some v => .ok (v.instr, b.drop 2)
      | none => .error (.unknownOpcode op)

/-- The space an instruction stands in. -/
def Instr.space : Instr → Space
  | .encRrq => .command
  | .encWrq => .command
  | .encData => .command
  | .encAck => .command
  | .encError => .command
  | .dec => .command
  | .maperr => .command
  | .wireRrq => .wire
  | .wireWrq => .wire
  | .wireData => .wire
  | .wireAck => .wire
  | .wireError => .wire

/-- The 16-bit wire opcode of a variant (R24, R75). -/
def Variant.opcode : Variant → Half
  | .rrq => 1
  | .wrq => 2
  | .data => 3
  | .ack => 4
  | .error => 5

/-- The encoder: the bytes of an instruction's word, from the rows of R80 and of R75. -/
def encode : Instr → Bytes
  | .encRrq => [0x01]
  | .encWrq => [0x02]
  | .encData => [0x03]
  | .encAck => [0x04]
  | .encError => [0x05]
  | .dec => [0x08]
  | .maperr => [0x09]
  | .wireRrq => be16 1
  | .wireWrq => be16 2
  | .wireData => be16 3
  | .wireAck => be16 4
  | .wireError => be16 5

/-- The minimum length of a packet with this opcode (R77); 2 for a packet that names no variant. -/
def minPacketLength (op : Half) : Nat :=
  match decodeOpcode op with
  | some .rrq => 6
  | some .wrq => 6
  | some .data => 4
  | some .ack => 4
  | some .error => 5
  | none => 2

/-- A packet whose first word is `op` and whose other bytes, up to the minimum length of its variant, are 0 (DESIGN CHOICE, log 7). -/
def zeroPacket (op : Half) : Bytes := be16 op ++ List.replicate (minPacketLength op - 2) 0x00

/-- The instruction the decoder reads from a table row's bits: 8 bits are a `CMD` byte, 16 bits a wire opcode, laid out
big-endian at the head of a packet whose other bytes are 0. -/
def decodeTableWord (nbits w : Nat) : Option Instr :=
  let answer (r : Except DecodeError (Instr × Bytes)) : Option Instr :=
    match r with
    | .ok (i, _) => some i
    | .error _ => none
  if nbits = 8 then answer (decode .command [BitVec.ofNat 8 w])
  else if nbits = 16 then answer (decode .wire (zeroPacket (BitVec.ofNat 16 w)))
  else none

end Sys2Proof
end

