-- ==== Sys2Proof/Machine/Operands.lean ====
section
/-! DEFINITION. Operand forms: the implicit operands of each command (30_encoding.md R82), the registers as the host
reads them (10_state.md R20, R22), and the string primitives (40_field_primitives.md R102, R103; 00_scope.md R12, R16). -/

namespace Sys2Proof.Machine

/-- `find0(B, i)` (R16): the least index `k >= i` with `B[k] = 0x00`, or none. -/
def find0 (b : Bytes) (i : Nat) : Option Nat := ((b.drop i).findIdx? (· == 0x00)).map (i + ·)

/-- `putstr(s)` (R102): the string and its terminator; `s` is not checked. -/
def putstr (s : Bytes) : Bytes := s ++ [0x00]

/-- `getstr(B, i)` (R103): the string without its terminator and the index after it; `none` is NOTERM. -/
def getstr (b : Bytes) (i : Nat) : Option (Bytes × Nat) :=
  match find0 b i with
  | none => none
  | some k => some (slice b i k, k + 1)

/-- `MemWrite(a, n, v)` (R12) on the output sequence being built: the byte `v` for `n = 1`, `be16(v)` for `n = 2`, at
indices `a..a+n-1`. Written at the end of the sequence it appends (R50), which is the one use the formats make of it. -/
def memWrite (out : Bytes) (a n : Nat) (v : Half) : Bytes :=
  out.take a ++ (if n = 1 then [v.extractLsb' 0 8] else be16 v) ++ out.drop (a + n)

/-- A byte sequence register's content fits the register (R23): the canonical form of the block's two byte spaces, `IN`
and `OUT` (R50), and of the other byte-sequence registers. -/
def Memory.wf (b : Option Bytes) : Bool :=
  match b with
  | none => true
  | some b => decide (b.length ≤ Config.bufMax)

/-- A register read by name (R13): its value, or `none` where it holds NONE. -/
def readReg (r : Reg) (s : State) : Option RegVal :=
  match r with
  | .cmd => s.cmd.map .byte
  | .status => some (.byte s.status)
  | .inBuf => s.inBuf.map .bytes
  | .out => s.out.map .bytes
  | .pvOp => s.pv.op.map .half
  | .pvFname => s.pv.fname.map .bytes
  | .pvMode => s.pv.mode.map .bytes
  | .pvBlock => s.pv.block.map .half
  | .pvPayload => s.pv.payload.map .bytes
  | .pvEcode => s.pv.ecode.map .half
  | .pvMsg => s.pv.msg.map .bytes
  | .evClass => s.ev.cls.map .cls
  | .evReason => s.ev.reason.map .reason
  | .evCtx => s.ev.ctx.map .bytes

/-- The register holds a value, not NONE (R22). -/
def holds (r : Reg) (s : State) : Bool := (readReg r s).isSome

/-- The free value, of the type R20 gives the register, that a host read shows where the register holds NONE (R22,
93_implementation_defined.md H3; DESIGN CHOICE, log 4). It depends on the instance's stream, on the register and on the
counter, so nothing says whether two reads of one instance, or of two registers, or of two instances of a `systemReset`
system show equal values; that it is the same wherever all three agree is the model's choice (log 4). A byte sequence is at
most `BUF_MAX` bytes long (R23). -/
def freeValue (stream : Nat) (r : Reg) (n : Nat) : RegVal :=
  match r with
  | .cmd => .byte (Config.freeByte stream r n)
  | .status => .byte (Config.freeByte stream r n)
  | .inBuf => .bytes ((Config.freeBytes stream r n).take Config.bufMax)
  | .out => .bytes ((Config.freeBytes stream r n).take Config.bufMax)
  | .pvOp => .half (Config.freeHalf stream r n)
  | .pvFname => .bytes ((Config.freeBytes stream r n).take Config.bufMax)
  | .pvMode => .bytes ((Config.freeBytes stream r n).take Config.bufMax)
  | .pvBlock => .half (Config.freeHalf stream r n)
  | .pvPayload => .bytes ((Config.freeBytes stream r n).take Config.bufMax)
  | .pvEcode => .half (Config.freeHalf stream r n)
  | .pvMsg => .bytes ((Config.freeBytes stream r n).take Config.bufMax)
  | .evClass => .cls (Config.freeClass stream r n)
  | .evReason => .reason (Config.freeReason stream r n)
  | .evCtx => .bytes ((Config.freeBytes stream r n).take Config.bufMax)

/-- The operand registers an instruction reads (R82). The variant decoders read what DEC reads. -/
def operands : Instr → List Reg
  | .encRrq => [.pvFname, .pvMode]
  | .encWrq => [.pvFname, .pvMode]
  | .encData => [.pvBlock, .pvPayload]
  | .encAck => [.pvBlock]
  | .encError => [.pvEcode, .pvMsg]
  | .dec => [.inBuf]
  | .maperr => [.evClass, .evCtx]
  | .wireRrq => [.inBuf]
  | .wireWrq => [.inBuf]
  | .wireData => [.inBuf]
  | .wireAck => [.inBuf]
  | .wireError => [.inBuf]

/-- Every operand register of the instruction holds a value, as 70_reset_and_hazards.md R232 asks of the host. -/
def operandsReady (i : Instr) (s : State) : Bool := (operands i).all (holds · s)

end Sys2Proof.Machine
end

