-- ==== Sys2Proof/Machine/Texts.lean ====
section
/-! DEFINITION. Error kinds, reason codes and texts: the class and reason numbers (10_state.md R28, 60_exceptions.md
R203), `REASON_TEXT` and its default table (R204), and the formatted message of an error value (43_error_mapping.md R172, R173). -/

namespace Sys2Proof.Machine

/-- The ASCII codes of a text's characters, with no terminator (00_scope.md R9; PRESUMED, log 13). -/
def ascii (t : String) : Bytes := t.toList.map fun c => BitVec.ofNat 8 c.toNat

/-- The decimal digits of `v`, at most `fuel` of them, put before `tail`. -/
def decimalDigits : Nat → Nat → Bytes → Bytes
  | 0, _, tail => tail
  | fuel + 1, v, tail =>
    let here := BitVec.ofNat 8 (0x30 + v % 10) :: tail
    if v / 10 = 0 then here else decimalDigits fuel (v / 10) here

/-- `decimal(v)` (R16): the shortest ASCII decimal spelling of a natural number (PRESUMED, log 13). -/
def decimal (v : Nat) : Bytes := decimalDigits (v + 1) v []

/-- The wire code of an error kind, which is its `EV.CLASS` value (R28, R170). -/
def kindCode : ErrorKind → BitVec 3
  | .unclassified => 0
  | .fileNotFound => 1
  | .accessViolation => 2
  | .diskFull => 3
  | .illegalOperation => 4
  | .unknownTransferId => 5
  | .fileExists => 6
  | .noSuchUser => 7

/-- The kind under which a reason is raised (R201, R203): the decode violations are IllegalOperation, the two encode
failures unclassified. -/
def reasonKind : Reason → ErrorKind
  | .noData => .illegalOperation
  | .unknownOpcode _ => .illegalOperation
  | .reqShort => .illegalOperation
  | .fnameNoterm => .illegalOperation
  | .fnameBlank => .illegalOperation
  | .modeNoterm => .illegalOperation
  | .modeBlank => .illegalOperation
  | .dataShort => .illegalOperation
  | .ackLen => .illegalOperation
  | .errLen => .illegalOperation
  | .errCodeRange _ => .illegalOperation
  | .msgNoterm => .illegalOperation
  | .encEcodeRange => .unclassified
  | .encShortWrite => .unclassified

/-- The 4-bit reason code (R203). -/
def reasonCode : Reason → BitVec 4
  | .noData => 1
  | .unknownOpcode _ => 2
  | .reqShort => 3
  | .fnameNoterm => 4
  | .fnameBlank => 5
  | .modeNoterm => 6
  | .modeBlank => 7
  | .dataShort => 8
  | .ackLen => 9
  | .errLen => 10
  | .errCodeRange _ => 11
  | .msgNoterm => 12
  | .encEcodeRange => 13
  | .encShortWrite => 14

/-- The default table of `REASON_TEXT` (R204), one of the choices R204 allows. The block's is `reasonText`. -/
def defaultReasonText : Reason → Bytes
  | .noData => ascii "no data in packet"
  | .unknownOpcode op => ascii "unknown opcode: " ++ decimal op.toNat
  | .reqShort => ascii "request not long enough"
  | .fnameNoterm => ascii "non-terminated filename"
  | .fnameBlank => ascii "blank filename"
  | .modeNoterm => ascii "non-terminated mode"
  | .modeBlank => ascii "blank mode"
  | .dataShort => ascii "data packet too short"
  | .ackLen => ascii "invalid ack length"
  | .errLen => ascii "invalid error packet length"
  | .errCodeRange c => ascii "invalid error code: " ++ decimal c.toNat
  | .msgNoterm => ascii "error message not terminated"
  | .encEcodeRange => ascii "error code out of range"
  | .encShortWrite => ascii "short write"

/-- `REASON_TEXT` (R8, R204): the OPEN parameter, of which a proof knows R204's constraints only (DESIGN CHOICE, log 2). -/
def reasonText (r : Reason) : Bytes := Config.reasonTexts.text r

/-- `KIND_TEXT(c, x)` (R173): any total function of `c` and `x` whose value for the kinds without a context (2 and 3)
does not depend on `x` and is at most `BUF_MAX` bytes long, and nothing more (DESIGN CHOICE, log 3). -/
def kindText (c : BitVec 3) (x : Bytes) : Bytes :=
  (Config.kindTextRaw c (if c = 2 ∨ c = 3 then [] else x)).take Config.bufMax

/-- `msg(c, x)` (R172): an unclassified error's message verbatim, a named kind's formatted message. -/
def message (c : BitVec 3) (x : Bytes) : Bytes := if c = 0 then x else kindText c x

end Sys2Proof.Machine
end

