-- ==== Sys2Proof/Machine/Ops.lean ====
section
/-! DEFINITION. The named operations a command's rule ends in: raising an error, which is the block's whole error entry
(10_state.md R30, 60_exceptions.md R207), finishing, the invalidations of R29, and the writes of the outputs. There is
no return from an error to model (R208). -/

namespace Sys2Proof.Machine

/-- `OUT <- NONE` (R29). -/
def invalidateOut (s : State) : State := { s with out := .none }

/-- Every PV register `<- NONE` (R29). -/
def invalidatePv (s : State) : State := { s with pv := .none }

/-- `EV.* <- NONE` (R29). -/
def invalidateEv (s : State) : State := { s with ev := .none }

/-- `raise Error(c, r, x)` (R30): EV takes the class, the reason code and the context text, and `STATUS` becomes
`{DONE = 1, ERR = 1, ILLCMD = 0}`. Nothing else is saved and control moves nowhere (R207). The invalidations follow. -/
def raise (r : Reason) (s : State) : State :=
  { s with
    ev := ⟨some (kindCode (reasonKind r)), some (reasonCode r), some (reasonText r)⟩
    status := statusRaise }

/-- `finish` (R30): `STATUS <- {DONE = 1, ERR = 0, ILLCMD = 0}`. The invalidations are the command's. -/
def finish (s : State) : State := { s with status := statusFinish }

/-- `OUT <- out` (R120). -/
def writeOut (out : Bytes) (s : State) : State := { s with out := some out }

/-- The PV registers that hold a packet value: `PV.OP` and the fields of its variant; the fields that are not of the
variant hold NONE (R24, R29). -/
def packetRegs : Packet → PacketValue
  | .rrq f m => { PacketValue.none with op := some 1, fname := some f, mode := some m }
  | .wrq f m => { PacketValue.none with op := some 2, fname := some f, mode := some m }
  | .data b p => { PacketValue.none with op := some 3, block := some b, payload := some p }
  | .ack b => { PacketValue.none with op := some 4, block := some b }
  | .error c g => { PacketValue.none with op := some 5, ecode := some c, msg := some g }

/-- Write a packet value into PV. -/
def writePacket (p : Packet) (s : State) : State := { s with pv := packetRegs p }

/-- An illegal command code (R83): `STATUS <- {DONE = 1, ERR = 0, ILLCMD = 1}` and no other register changes. -/
def illegalCommand (s : State) : State := { s with status := statusIllegal }

/-- `UNSET_OPERAND` (R210): the model records the fault and writes no register. The command ends (70_reset_and_hazards.md
R237), and `STATUS` is unchanged (R200). -/
def recordUnsetOperand (s : State) : State := { s with fault := some .unsetOperand }

/-- An ENC command's raise: the error, then `OUT <- NONE` (R29). -/
def raiseEnc (r : Reason) (s : State) : State := invalidateOut (raise r s)

/-- DEC's raise: the error, then every PV register `<- NONE` (R29). -/
def raiseDec (r : Reason) (s : State) : State := invalidatePv (raise r s)

/-- `ENC_FINISH(out)` (41_encode.md R120): the capacity check of R126, then `OUT <- out`, finish and `EV.* <- NONE`. -/
def encFinish (out : Bytes) (s : State) : State :=
  if Config.bufMax < out.length then raiseEnc .encShortWrite s
  else finish (invalidateEv (writeOut out s))

/-- DEC's finish with a decoded packet value (42_decode.md R140): PV takes it, `EV.* <- NONE`. -/
def decFinish (p : Packet) (s : State) : State := finish (invalidateEv (writePacket p s))

end Sys2Proof.Machine
end

