-- ==== Sys2Proof/Machine/Encoder.lean ====
section
/-! DEFINITION. The encode commands ENC.RRQ, ENC.WRQ, ENC.DATA, ENC.ACK and ENC.ERROR (41_encode.md): the packet layout,
written once for the five variants, and the five meanings. Each records UNSET_OPERAND, before any check, where an operand
register holds NONE (60_exceptions.md R205, R210, and the "Exceptions" of each rule). -/

namespace Sys2Proof.Machine

/-- The bytes of a packet value, with no length bound: the layouts of 30_encoding.md R71 to R74 as the pseudocode of R121
to R125 builds them. -/
def packetBytes : Packet → Bytes
  | .rrq f m => be16 1 ++ putstr f ++ putstr m
  | .wrq f m => be16 2 ++ putstr f ++ putstr m
  | .data b p => be16 3 ++ be16 b ++ p
  | .ack b => be16 4 ++ be16 b
  | .error c g => be16 5 ++ be16 c ++ putstr g

/-- ENC.RRQ (R121). -/
def execEncRrq (s : State) : Result :=
  match s.pv.fname, s.pv.mode with
  | some f, some m => .next (encFinish (packetBytes (.rrq f m)) s)
  | _, _ => .next (recordUnsetOperand s)

/-- ENC.WRQ (R122). -/
def execEncWrq (s : State) : Result :=
  match s.pv.fname, s.pv.mode with
  | some f, some m => .next (encFinish (packetBytes (.wrq f m)) s)
  | _, _ => .next (recordUnsetOperand s)

/-- ENC.DATA (R123). -/
def execEncData (s : State) : Result :=
  match s.pv.block, s.pv.payload with
  | some b, some p => .next (encFinish (packetBytes (.data b p)) s)
  | _, _ => .next (recordUnsetOperand s)

/-- ENC.ACK (R124). -/
def execEncAck (s : State) : Result :=
  match s.pv.block with
  | some b => .next (encFinish (packetBytes (.ack b)) s)
  | none => .next (recordUnsetOperand s)

/-- ENC.ERROR (R125): the range check comes first. -/
def execEncError (s : State) : Result :=
  match s.pv.ecode, s.pv.msg with
  | some c, some g =>
    if Config.errEncodeMax < c.toNat then .next (raiseEnc .encEcodeRange s)
    else .next (encFinish (packetBytes (.error c g)) s)
  | _, _ => .next (recordUnsetOperand s)

end Sys2Proof.Machine
end

