-- ==== Sys2Proof/Machine/MapErr.lean ====
section
/-! DEFINITION. The mapping command MAPERR (43_error_mapping.md R174). -/

namespace Sys2Proof.Machine

/-- MAPERR (R174): PV takes the Error packet value that the error value in EV maps to; EV keeps its value and
`EV.REASON` is not read. It records UNSET_OPERAND where `EV.CLASS` or `EV.CTX` holds NONE (R174, R210). -/
def execMaperr (s : State) : Result :=
  match s.ev.cls, s.ev.ctx with
  | some c, some x => .next (finish (writePacket (.error (c.setWidth 16) (message c x)) s))
  | _, _ => .next (recordUnsetOperand s)

end Sys2Proof.Machine
end

