-- ==== Sys2Proof/Machine/Decoder.lean ====
section
/-! DEFINITION. The decode command DEC and the variant decoders it dispatches to (42_decode.md R140 to R148). A decoder is
a pure function of the bytes (R150); the largest accepted ErrorCode is an argument (`ERR_DECODE_MAX`, 00_scope.md R8). -/

namespace Sys2Proof.Machine

/-- How a decoder ends: with a packet value, with the first violation it meets, or, which R149 excludes, with an access
past the end of the bytes. -/
inductive Decoded where
  | packet (p : Packet)
  | raised (r : Reason)
  | outOfBounds
  deriving DecidableEq, Repr

/-- `DEC_REQ(v)` (R143), `mk` being the packet value of the variant `v`. -/
def decReq (mk : Bytes → Bytes → Packet) (b : Bytes) : Decoded :=
  if b.length < 6 then .raised .reqShort
  else
    match getstr b 2 with
    | none => .raised .fnameNoterm
    | some (f, j) =>
      if f.length = 0 then .raised .fnameBlank
      else
        match getstr b j with
        | none => .raised .modeNoterm
        | some (m, _) =>
          if m.length = 0 then .raised .modeBlank
          else .packet (mk f m)

/-- `DEC_DATA` (R146). -/
def decData (b : Bytes) : Decoded :=
  if b.length < 4 then .raised .dataShort
  else
    match rd16 b 2 with
    | none => .outOfBounds
    | some block => .packet (.data block (slice b 4 b.length))

/-- `DEC_ACK` (R147). -/
def decAck (b : Bytes) : Decoded :=
  if b.length ≠ 4 then .raised .ackLen
  else
    match rd16 b 2 with
    | none => .outOfBounds
    | some block => .packet (.ack block)

/-- `DEC_ERROR` (R148). -/
def decError (maxCode : Nat) (b : Bytes) : Decoded :=
  if b.length < 5 then .raised .errLen
  else
    match rd16 b 2 with
    | none => .outOfBounds
    | some c =>
      if maxCode < c.toNat then .raised (.errCodeRange c)
      else
        match getstr b 4 with
        | none => .raised .msgNoterm
        | some (g, _) => .packet (.error c g)

/-- The decoder of a variant (R144 to R148). -/
def decVariant (maxCode : Nat) (v : Variant) (b : Bytes) : Decoded :=
  match v with
  | .rrq => decReq .rrq b
  | .wrq => decReq .wrq b
  | .data => decData b
  | .ack => decAck b
  | .error => decError maxCode b

/-- DEC's dispatcher (R140): the length check of R141, one read of the opcode, then the variant's decoder, or reason 2
(R142). -/
def decodePacket (maxCode : Nat) (b : Bytes) : Decoded :=
  if b.length < 2 then .raised .noData
  else
    match rd16 b 0 with
    | none => .outOfBounds
    | some op =>
      match decodeOpcode op with
      | none => .raised (.unknownOpcode op)
      | some v => decVariant maxCode v b

/-- End the command as its decoder ended (R140). -/
def deliver (d : Decoded) (s : State) : Result :=
  match d with
  | .packet p => .next (decFinish p s)
  | .raised r => .next (raiseDec r s)
  | .outOfBounds => .fault .outOfBounds

/-- Run a decoder on the value of `IN`, or record UNSET_OPERAND where `IN` holds NONE (R140, R210). -/
def runDecoder (d : Bytes → Decoded) (s : State) : Result :=
  match s.inBuf with
  | none => .next (recordUnsetOperand s)
  | some b => deliver (d b) s

/-- DEC (R140). -/
def execDec (s : State) : Result := runDecoder (decodePacket Config.errDecodeMax) s

end Sys2Proof.Machine
end

