-- ==== Sys2Proof/Machine/Wire.lean ====
section
/-! DEFINITION. The wire-opcode rows of spec/opcode_table.json: the meaning of each is its variant decoder, run on the
packet in `IN` (42_decode.md, heading, R144 to R148). DEC reaches them through its dispatch; what DEC's dispatcher checks
before it (R141, R142) is DEC's (DEDUCED, log 6). -/

namespace Sys2Proof.Machine

/-- WIRE.RRQ (R144): `DEC_REQ(1)`. -/
def execWireRrq (s : State) : Result := runDecoder (decVariant Config.errDecodeMax .rrq) s

/-- WIRE.WRQ (R145): `DEC_REQ(2)`. -/
def execWireWrq (s : State) : Result := runDecoder (decVariant Config.errDecodeMax .wrq) s

/-- WIRE.DATA (R146): `DEC_DATA`. -/
def execWireData (s : State) : Result := runDecoder (decVariant Config.errDecodeMax .data) s

/-- WIRE.ACK (R147): `DEC_ACK`. -/
def execWireAck (s : State) : Result := runDecoder (decVariant Config.errDecodeMax .ack) s

/-- WIRE.ERROR (R148): `DEC_ERROR`. -/
def execWireError (s : State) : Result := runDecoder (decVariant Config.errDecodeMax .error) s

end Sys2Proof.Machine
end

