-- ==== Sys2Proof/Machine/Dispatch.lean ====
section
/-! DEFINITION. The meaning of every instruction: one arm per constructor, each one direct call. -/

namespace Sys2Proof.Machine

def exec (i : Instr) (s : State) : Host.Outcome State Fault Refusal :=
  match i with
  | .encRrq => Sys2Proof.Machine.execEncRrq s
  | .encWrq => Sys2Proof.Machine.execEncWrq s
  | .encData => Sys2Proof.Machine.execEncData s
  | .encAck => Sys2Proof.Machine.execEncAck s
  | .encError => Sys2Proof.Machine.execEncError s
  | .dec => Sys2Proof.Machine.execDec s
  | .maperr => Sys2Proof.Machine.execMaperr s
  | .wireRrq => Sys2Proof.Machine.execWireRrq s
  | .wireWrq => Sys2Proof.Machine.execWireWrq s
  | .wireData => Sys2Proof.Machine.execWireData s
  | .wireAck => Sys2Proof.Machine.execWireAck s
  | .wireError => Sys2Proof.Machine.execWireError s

end Sys2Proof.Machine
end

