-- ==== Sys2Proof/WellFormed.lean ====
section
/-! DEFINITION. What is well formed: an instruction (30_encoding.md R81), a packet value (10_state.md R25) and a host
action (R23). -/

namespace Sys2Proof

/-- A byte sequence fits a byte-sequence register (R23): at most `BUF_MAX` bytes. -/
def fitsBuffer (b : Bytes) : Bool := decide (b.length ≤ Config.bufMax)

/-- An instruction's operands are fixed named registers (R81), so no instruction as syntax is ill formed; a word that
is no instruction is refused by the decoder. -/
def Instr.wellFormed (_ : Instr) : Bool := true

/-- A Request string (R24): at least one byte, none of them `0x00`. -/
def isField (b : Bytes) : Bool := decide (1 ≤ b.length) && !b.contains 0x00

/-- The invariant of a packet's variant (R25, 90_conflicts.md C2), without the length condition. -/
def Packet.fieldsOk : Packet → Bool
  | .rrq f m => isField f && isField m
  | .wrq f m => isField f && isField m
  | .data _ _ => true
  | .ack _ => true
  | .error c g => decide (c.toNat ≤ 7) && !g.contains 0x00

/-- The encoded length of a packet value (41_encode.md R120). -/
def Packet.encodedLength : Packet → Nat
  | .rrq f m => 4 + f.length + m.length
  | .wrq f m => 4 + f.length + m.length
  | .data _ p => 4 + p.length
  | .ack _ => 4
  | .error _ g => 5 + g.length

/-- A valid packet value (R25): its variant's invariant holds and its encoding fits in `BUF_MAX` bytes. -/
def Packet.valid (p : Packet) : Bool := p.fieldsOk && decide (p.encodedLength ≤ Config.bufMax)

/-- A host write of a byte sequence is an action the host has only up to the capacity (R23). -/
def Action.fits : Action → Bool
  | .writeCmd _ => true
  | .writeIn b => fitsBuffer b
  | .writePvOp _ => true
  | .writePvFname b => fitsBuffer b
  | .writePvMode b => fitsBuffer b
  | .writePvBlock _ => true
  | .writePvPayload b => fitsBuffer b
  | .writePvEcode _ => true
  | .writePvMsg b => fitsBuffer b
  | .writeEvClass _ => true
  | .writeEvReason _ => true
  | .writeEvCtx b => fitsBuffer b
  | .read _ => true
  | .reset => true

end Sys2Proof
end

