-- ==== Sys2Proof/Machine/Port.lean ====
section
/-! DEFINITION. The block's port: what each action from outside does (10_state.md R20, R22, R23; 20_memory.md R57, R60;
70_reset_and_hazards.md R230), and how a `CMD` write starts a command (30_encoding.md R80, R83). -/

namespace Sys2Proof.Machine

/-- A `CMD` write (R57, R80): the register takes the value and the command it names runs, as one step (R56; DESIGN
CHOICE, log 9: the atomic implementation). A code that
names none has the illegal-command outcome (R83). -/
def startCommand (code : Byte) (s : State) : Result :=
  match decodeCommand code with
  | some i => exec i { s with cmd := some code }
  | none => .next (illegalCommand { s with cmd := some code })

/-- A host read (R57, R60): no register changes; the host sees the register's value, or a free value where it holds NONE
(R22). -/
def observe (r : Reg) (s : State) : State :=
  match readReg r s with
  | some v => { s with reads := s.reads ++ [⟨r, v⟩] }
  | none => { s with reads := s.reads ++ [⟨r, freeValue s.stream r s.nfree⟩], nfree := s.nfree + 1 }

/-- Reset (R230): every register takes its reset value (R34). The fault recorded, the actions still to come and what the host
has read are not the block's (DESIGN CHOICE, log 14). -/
def applyReset (s : State) : State :=
  { State.reset with fault := s.fault, pending := s.pending, reads := s.reads, stream := s.stream, nfree := s.nfree }

/-- A host write of a byte sequence (R22, R23): `store` of it, or no step where it is longer than `BUF_MAX`. -/
def storeBytes (b : Bytes) (stored : State) : Result :=
  if fitsBuffer b then .next stored else .refused .overCapacity

/-- Apply one action. A host write of one EV register leaves the other two as they are (R57; DEDUCED, log 11). -/
def perform (a : Action) (s : State) : Result :=
  match a with
  | .writeCmd code => startCommand code s
  | .writeIn b => storeBytes b { s with inBuf := some b }
  | .writePvOp v => .next { s with pv := { s.pv with op := some v } }
  | .writePvFname b => storeBytes b { s with pv := { s.pv with fname := some b } }
  | .writePvMode b => storeBytes b { s with pv := { s.pv with mode := some b } }
  | .writePvBlock v => .next { s with pv := { s.pv with block := some v } }
  | .writePvPayload b => storeBytes b { s with pv := { s.pv with payload := some b } }
  | .writePvEcode v => .next { s with pv := { s.pv with ecode := some v } }
  | .writePvMsg b => storeBytes b { s with pv := { s.pv with msg := some b } }
  | .writeEvClass v => .next { s with ev := { s.ev with cls := some v } }
  | .writeEvReason v => .next { s with ev := { s.ev with reason := some v } }
  | .writeEvCtx b => storeBytes b { s with ev := { s.ev with ctx := some b } }
  | .read r => .next (observe r s)
  | .reset => .next (applyReset s)

/-- Take the next action off the queue and apply it; with none left the block is idle and holds its registers
(60_exceptions.md R218, 70_reset_and_hazards.md R231, R238; DESIGN CHOICE, log 5). -/
def takeAction (s : State) : Result :=
  match s.pending with
  | [] => .next s
  | a :: rest => perform a { s with pending := rest }

/-- The state in which the next step runs a table row's word: a command code is written to `CMD`; a wire opcode begins
the packet in `IN` and DEC is started on it (DESIGN CHOICE, log 7). -/
def placeWord (s : State) (nbits w : Nat) : State :=
  if nbits = 8 then { s with pending := .writeCmd (BitVec.ofNat 8 w) :: s.pending }
  else if nbits = 16 then
    { s with inBuf := some (zeroPacket (BitVec.ofNat 16 w)), pending := .writeCmd 0x08 :: s.pending }
  else s

end Sys2Proof.Machine
end

