-- ==== Sys2Proof/Machine/System.lean ====
section
/-! DEFINITION. Several instances side by side (00_scope.md R6, 20_memory.md R62, 60_exceptions.md R216): each has its own
registers and its own run of actions, and they share nothing. Which instance moves is the caller's choice, so a statement
over every choice is a statement over every interleaving
(DESIGN CHOICE, log 10). -/

namespace Sys2Proof.Machine

/-- The instances, by number; the numbers are the platform's, no command can see them (R216). -/
structure System where
  instances : List State
  deriving DecidableEq, Repr

/-- All instances start together at reset (R216). Each draws the free values of its host reads from a stream of its own
(DESIGN CHOICE, log 4). -/
def systemReset : System := ⟨(List.range Config.instances).map fun k => { State.reset with stream := k }⟩

/-- One step of instance `k`; a fault or refusal of the instance is one of the system, since it has no step then
(R211). -/
def systemStep (k : Nat) (y : System) : Host.Outcome System Fault Refusal :=
  match y.instances[k]? with
  | none => .refused .noSuchInstance
  | some s =>
    match step s with
    | .next t => .next ⟨y.instances.set k t⟩
    | .fault f => .fault f
    | .refused r => .refused r

end Sys2Proof.Machine
end

