-- ==== Sys2Proof/Safety.lean ====
section
/-! DEFINITION. What the statements call a safe state and a safe outcome: the capacity of the byte-sequence registers
(10_state.md R23), what `STATUS` says about the last command (R27, R29, R200), and the registers a command reads and writes
(30_encoding.md R82, R29). -/

namespace Sys2Proof.Machine

/-- Every byte-sequence register is within its capacity (R23). -/
def CapacityInv (s : State) : Prop :=
  Memory.wf s.inBuf = true ∧ Memory.wf s.out = true ∧
  Memory.wf s.pv.fname = true ∧ Memory.wf s.pv.mode = true ∧ Memory.wf s.pv.payload = true ∧ Memory.wf s.pv.msg = true ∧
  Memory.wf s.ev.ctx = true

/-- The encode commands. -/
def isEnc : Instr → Bool
  | .encRrq => true
  | .encWrq => true
  | .encData => true
  | .encAck => true
  | .encError => true
  | .dec => false
  | .maperr => false
  | .wireRrq => false
  | .wireWrq => false
  | .wireData => false
  | .wireAck => false
  | .wireError => false

/-- The decode command and the variant decoders it is made of. -/
def isDec : Instr → Bool
  | .encRrq => false
  | .encWrq => false
  | .encData => false
  | .encAck => false
  | .encError => false
  | .dec => true
  | .maperr => false
  | .wireRrq => true
  | .wireWrq => true
  | .wireData => true
  | .wireAck => true
  | .wireError => true

/-- `STATUS` describes the last command written to `CMD` (R27, R200): `0x00` and no command since reset; `0x05` and the
last code was illegal; or the last code names a command that finished (`0x01`), an ENC command then having left a packet
in `OUT` (R56), or raised (`0x03`), the command then being one that can raise (R201), EV holding the error (R27) and an
ENC command having left no packet in `OUT` (R29). -/
def StatusInv (s : State) : Prop :=
  (s.cmd = none ∧ s.status = 0x00) ∨
  (∃ c, s.cmd = some c ∧ decodeCommand c = none ∧ s.status = 0x05) ∨
  (∃ c i, s.cmd = some c ∧ decodeCommand c = some i ∧ s.status = 0x01 ∧ (isEnc i = true → s.out ≠ none)) ∨
  (∃ c i, s.cmd = some c ∧ decodeCommand c = some i ∧ s.status = 0x03 ∧
    i ≠ .maperr ∧ i ≠ .encAck ∧
    s.ev.cls ≠ none ∧ s.ev.reason ≠ none ∧ s.ev.ctx ≠ none ∧
    (isEnc i = true → s.out = none))

/-- The run has recorded no model fault: the premise of every claim about what the block does (60_exceptions.md R210:
"the faulted state is never a final state of any claim"; 95_test_vectors.md, Program 5). -/
def NoFault (s : State) : Prop := s.fault = none

/-- `STATUS` holds one of the values of R200, a raise's only with an error in EV (R27, R200). -/
def OutcomeInv (s : State) : Prop :=
  s.status = 0x00 ∨ s.status = 0x01 ∨ s.status = 0x05 ∨
  (s.status = 0x03 ∧ s.ev.cls ≠ none ∧ s.ev.reason ≠ none ∧ s.ev.ctx ≠ none)

/-- The invariant of the machine. That `STATUS` describes the last command is claimed of runs that have recorded no fault,
since a command that faults leaves `STATUS` as it was (R200). -/
def Inv (s : State) : Prop := CapacityInv s ∧ OutcomeInv s ∧ (NoFault s → StatusInv s)

/-- The registers an instruction can write or invalidate (R29, R82). -/
def writes : Instr → List Reg
  | .encRrq => [.status, .out, .evClass, .evReason, .evCtx]
  | .encWrq => [.status, .out, .evClass, .evReason, .evCtx]
  | .encData => [.status, .out, .evClass, .evReason, .evCtx]
  | .encAck => [.status, .out, .evClass, .evReason, .evCtx]
  | .encError => [.status, .out, .evClass, .evReason, .evCtx]
  | .dec => [.status, .pvOp, .pvFname, .pvMode, .pvBlock, .pvPayload, .pvEcode, .pvMsg, .evClass, .evReason, .evCtx]
  | .maperr => [.status, .pvOp, .pvFname, .pvMode, .pvBlock, .pvPayload, .pvEcode, .pvMsg]
  | .wireRrq => [.status, .pvOp, .pvFname, .pvMode, .pvBlock, .pvPayload, .pvEcode, .pvMsg, .evClass, .evReason, .evCtx]
  | .wireWrq => [.status, .pvOp, .pvFname, .pvMode, .pvBlock, .pvPayload, .pvEcode, .pvMsg, .evClass, .evReason, .evCtx]
  | .wireData => [.status, .pvOp, .pvFname, .pvMode, .pvBlock, .pvPayload, .pvEcode, .pvMsg, .evClass, .evReason, .evCtx]
  | .wireAck => [.status, .pvOp, .pvFname, .pvMode, .pvBlock, .pvPayload, .pvEcode, .pvMsg, .evClass, .evReason, .evCtx]
  | .wireError => [.status, .pvOp, .pvFname, .pvMode, .pvBlock, .pvPayload, .pvEcode, .pvMsg, .evClass, .evReason, .evCtx]

end Sys2Proof.Machine
end

