-- ==== Sys2Proof/Certificates/Slice0/Obligations.lean ====
section
/-! DEFINITION. The statements for the provers. A statement writes out the registers a rule gives, with the numbers of the
spec, by the helpers of `Sys2Proof.Claim`, which call none of the model's operations. -/

namespace Sys2Proof.Claim

open Sys2Proof Sys2Proof.Machine

/-- The state after a failed DEC (10_state.md R29, R30): EV holds class 4, the reason and its text, every PV register
NONE, `STATUS = 0x03`; all else as in `s`. -/
def decFails (s : State) (reason : BitVec 4) (text : Bytes) : State :=
  { s with
    pv := ⟨none, none, none, none, none, none, none⟩
    ev := ⟨some 4, some reason, some text⟩
    status := 0x03 }

/-- The state after a DEC that finishes (R29, R30): PV as given, EV NONE, `STATUS = 0x01`; all else as in `s`. -/
def decodes (s : State) (pv : PacketValue) : State :=
  { s with pv := pv, ev := ⟨none, none, none⟩, status := 0x01 }

/-- The state after a failed ENC (R29, R30): EV holds class 0, the reason and its text, `OUT` NONE, `STATUS = 0x03`; all
else as in `s`. -/
def encFails (s : State) (reason : BitVec 4) (text : Bytes) : State :=
  { s with out := none, ev := ⟨some 0, some reason, some text⟩, status := 0x03 }

/-- The state after an ENC that finishes (R29, R30): `OUT` as given, EV NONE, `STATUS = 0x01`; all else as in `s`. -/
def encodes (s : State) (out : Bytes) : State :=
  { s with out := some out, ev := ⟨none, none, none⟩, status := 0x01 }

/-- The state after a command that found an operand register at NONE (60_exceptions.md R210): the model fault is recorded and
every register is as in `s`. -/
def faulted (s : State) : State := { s with fault := some .unsetOperand }

/-- Every register the instruction reads (30_encoding.md R82) holds a value. -/
def ready (i : Instr) (s : State) : Prop := ∀ r ∈ operands i, readReg r s ≠ none

/-- PV with the fields of a ReadRequest (`op = 1`) or WriteRequest (`op = 2`) and NONE elsewhere (R24). -/
def requestPv (op : Half) (f m : Bytes) : PacketValue := ⟨some op, some f, some m, none, none, none, none⟩

/-- PV with the fields of a Data packet and NONE elsewhere (R24). -/
def dataPv (b : Half) (p : Bytes) : PacketValue := ⟨some 3, none, none, some b, some p, none, none⟩

/-- PV with the fields of an Ack and NONE elsewhere (R24). -/
def ackPv (b : Half) : PacketValue := ⟨some 4, none, none, some b, none, none, none⟩

/-- PV with the fields of an Error packet and NONE elsewhere (R24). -/
def errorPv (c : Half) (g : Bytes) : PacketValue := ⟨some 5, none, none, none, none, some c, some g⟩

/-- PV with the fields of a packet value (R24). -/
def pvOf : Packet → PacketValue
  | .rrq f m => requestPv 1 f m
  | .wrq f m => requestPv 2 f m
  | .data b p => dataPv b p
  | .ack b => ackPv b
  | .error c g => errorPv c g

/-- The ENC command of a packet value's variant (30_encoding.md R80). -/
def encOf : Packet → Instr
  | .rrq _ _ => .encRrq
  | .wrq _ _ => .encWrq
  | .data _ _ => .encData
  | .ack _ => .encAck
  | .error _ _ => .encError

/-- The PV fields of the packet value's variant hold its fields; `PV.OP` is not asked about (R24). -/
def fieldsHeld : Packet → State → Prop
  | .rrq f m, s => s.pv.fname = some f ∧ s.pv.mode = some m
  | .wrq f m, s => s.pv.fname = some f ∧ s.pv.mode = some m
  | .data b p, s => s.pv.block = some b ∧ s.pv.payload = some p
  | .ack b, s => s.pv.block = some b
  | .error c g, s => s.pv.ecode = some c ∧ s.pv.msg = some g

/-- A string with no terminator byte in it. -/
def noNul (b : Bytes) : Prop := (0x00 : Byte) ∉ b

/-- What DEC accepts as the fields of a packet when the largest accepted ErrorCode is `maxCode` (42_decode.md R143 to
R148). -/
def accepted (maxCode : Nat) : Packet → Prop
  | .rrq f m => 1 ≤ f.length ∧ noNul f ∧ 1 ≤ m.length ∧ noNul m
  | .wrq f m => 1 ≤ f.length ∧ noNul f ∧ 1 ≤ m.length ∧ noNul m
  | .data _ _ => True
  | .ack _ => True
  | .error c g => c.toNat ≤ maxCode ∧ noNul g

/-- The packet formats in which bytes after the last field are ignored (30_encoding.md R79). -/
def ignoresTail : Packet → Prop
  | .rrq _ _ => True
  | .wrq _ _ => True
  | .data _ _ => False
  | .ack _ => False
  | .error _ _ => True

/-- The bytes of a packet, field by field (30_encoding.md R71 to R74, R100, R102). -/
def layout : Packet → Bytes
  | .rrq f m => [0x00, 0x01] ++ f ++ [0x00] ++ m ++ [0x00]
  | .wrq f m => [0x00, 0x02] ++ f ++ [0x00] ++ m ++ [0x00]
  | .data b p => [0x00, 0x03, b.extractLsb' 8 8, b.extractLsb' 0 8] ++ p
  | .ack b => [0x00, 0x04, b.extractLsb' 8 8, b.extractLsb' 0 8]
  | .error c g => [0x00, 0x05, c.extractLsb' 8 8, c.extractLsb' 0 8] ++ g ++ [0x00]

/-- No `0x00` stands at an index `>= i`. -/
def noZeroFrom (b : Bytes) (i : Nat) : Prop := ∀ k, i ≤ k → b[k]? ≠ some 0x00

/-- `k` is the least index `>= i` at which `0x00` stands (00_scope.md R16). -/
def firstZeroFrom (b : Bytes) (i k : Nat) : Prop :=
  i ≤ k ∧ b[k]? = some 0x00 ∧ ∀ j, i ≤ j → j < k → b[j]? ≠ some 0x00

/-- Two states agree on some registers. -/
def agree (rs : List Reg) (s t : State) : Prop := ∀ r ∈ rs, readReg r s = readReg r t

end Sys2Proof.Claim

open Sys2Proof Sys2Proof.Machine

/-! ### Encodings and the step -/

/-- The words of spec/opcode_table.json, written out bit by bit, decode to their rows (30_encoding.md R80, R75). -/
def Obligations.TableWordsDecodeToTheirRows : Prop :=
  decode .command [0b00000001] = .ok (.encRrq, []) ∧
  decode .command [0b00000010] = .ok (.encWrq, []) ∧
  decode .command [0b00000011] = .ok (.encData, []) ∧
  decode .command [0b00000100] = .ok (.encAck, []) ∧
  decode .command [0b00000101] = .ok (.encError, []) ∧
  decode .command [0b00001000] = .ok (.dec, []) ∧
  decode .command [0b00001001] = .ok (.maperr, []) ∧
  decode .wire [0b00000000, 0b00000001] = .ok (.wireRrq, []) ∧
  decode .wire [0b00000000, 0b00000010] = .ok (.wireWrq, []) ∧
  decode .wire [0b00000000, 0b00000011] = .ok (.wireData, []) ∧
  decode .wire [0b00000000, 0b00000100] = .ok (.wireAck, []) ∧
  decode .wire [0b00000000, 0b00000101] = .ok (.wireError, [])

/-- Decode and encode agree in both directions: bytes decode to an instruction exactly in the instruction's own space, when
they are its encoded word and what is left (30_encoding.md R75, R80, R81). -/
def Obligations.DecodeReadsExactlyTheEncodings : Prop :=
  ∀ (sp : Space) (b rest : Bytes) (i : Instr),
    decode sp b = .ok (i, rest) ↔ sp = i.space ∧ b = encode i ++ rest

/-- 30_encoding.md R75, R76: the match is on all 16 bits, five opcodes select a variant, and every other one is
illegal. -/
def Obligations.OnlyOpcodesOneToFiveDecode : Prop :=
  ∀ (op : Half) (b : Bytes),
    (op = 1 → decode .wire (be16 op ++ b) = .ok (.wireRrq, b)) ∧
    (op = 2 → decode .wire (be16 op ++ b) = .ok (.wireWrq, b)) ∧
    (op = 3 → decode .wire (be16 op ++ b) = .ok (.wireData, b)) ∧
    (op = 4 → decode .wire (be16 op ++ b) = .ok (.wireAck, b)) ∧
    (op = 5 → decode .wire (be16 op ++ b) = .ok (.wireError, b)) ∧
    (op = 0 ∨ 6 ≤ op.toNat → decode .wire (be16 op ++ b) = .error (.unknownOpcode op))

/-- A step runs the decoded instruction (20_memory.md R57, 30_encoding.md R80): a `CMD` write whose code decodes to `i`
leaves the code in `CMD` and runs `i` in the same step; the action is taken off the queue, and nothing else is done around
it. The codes are those of R80's table. -/
def Obligations.StepRunsTheDecodedCommand : Prop :=
  ∀ (s : State) (c : Byte) (rest : List Action), s.pending = .writeCmd c :: rest →
    (∀ i, decode .command [c] = .ok (i, []) → step s = exec i { s with pending := rest, cmd := some c }) ∧
    (c = 0x01 → step s = exec .encRrq { s with pending := rest, cmd := some c }) ∧
    (c = 0x02 → step s = exec .encWrq { s with pending := rest, cmd := some c }) ∧
    (c = 0x03 → step s = exec .encData { s with pending := rest, cmd := some c }) ∧
    (c = 0x04 → step s = exec .encAck { s with pending := rest, cmd := some c }) ∧
    (c = 0x05 → step s = exec .encError { s with pending := rest, cmd := some c }) ∧
    (c = 0x08 → step s = exec .dec { s with pending := rest, cmd := some c }) ∧
    (c = 0x09 → step s = exec .maperr { s with pending := rest, cmd := some c })

/-- 30_encoding.md R75: DEC reads the packet's opcode and runs the row it selects, the match being on all 16 bits. -/
def Obligations.DecRunsTheRowOfTheOpcode : Prop :=
  (∀ (s : State) (b rest : Bytes) (i : Instr),
    s.inBuf = some b → decode .wire b = .ok (i, rest) → exec .dec s = exec i s) ∧
  (∀ (s : State) (op : Half) (rest : Bytes), s.inBuf = some (be16 op ++ rest) →
    (op = 1 → exec .dec s = exec .wireRrq s) ∧
    (op = 2 → exec .dec s = exec .wireWrq s) ∧
    (op = 3 → exec .dec s = exec .wireData s) ∧
    (op = 4 → exec .dec s = exec .wireAck s) ∧
    (op = 5 → exec .dec s = exec .wireError s))

/-- A table row's word placed for the next step is the instruction that step runs, in the state that holds it. The zero
bytes after a wire opcode are the model's choice (log 7). -/
def Obligations.PlacedWordIsTheOneRun : Prop :=
  ∀ (s : State) (nbits w : Nat) (i : Instr),
    decodeTableWord nbits w = some i →
      ∃ c, step (s.withFetchWord nbits w) =
        exec i { s.withFetchWord nbits w with pending := s.pending, cmd := some c }

/-- 30_encoding.md R83: writing any code not in R80 sets `STATUS` to DONE and ILLCMD and changes no other register, `CMD`
holding the code. -/
def Obligations.IllegalCommandSetsOnlyStatus : Prop :=
  ∀ (s : State) (c : Byte) (rest : List Action),
    s.pending = .writeCmd c :: rest →
    (c = 0x00 ∨ c = 0x06 ∨ c = 0x07 ∨ 0x0A ≤ c.toNat) →
      step s = .next { s with pending := rest, cmd := some c, status := 0x05 }

/-! ### Reset, host reads and host writes -/

/-- 10_state.md R34: after reset `STATUS` is `0x00` and every other register holds NONE; the reset action brings any state
there, and the machine starts there. -/
def Obligations.ResetLeavesStatusZeroAndTheRestNone : Prop :=
  (∀ (s : State) (rest : List Action), s.pending = .reset :: rest →
    ∃ t, step s = .next t ∧ t.status = 0x00 ∧ ∀ r, r ≠ .status → readReg r t = none) ∧
  core.reset.status = 0x00 ∧ ∀ r, r ≠ .status → readReg r core.reset = none

/-- 20_memory.md R57, R60: a host read changes no register, and shows the value the register holds. Where it holds NONE
the read still completes and shows one value more, of which nothing is said (10_state.md R22, log 4). -/
def Obligations.HostReadChangesNoRegister : Prop :=
  ∀ (s : State) (r : Reg) (rest : List Action), s.pending = .read r :: rest →
    ∃ t v, step s = .next t ∧ t.pending = rest ∧ (∀ q, readReg q t = readReg q s) ∧
      t.reads = s.reads ++ [⟨r, v⟩] ∧ (∀ w, readReg r s = some w → v = w)

/-- 10_state.md R22, 20_memory.md R57: a host write of a register other than `CMD` only stores the value; a byte sequence
is one of at most `BUF_MAX` bytes. That a write of one EV register leaves the other two as they are, EV.REASON among them,
and that the host may write any 4-bit reason, is the model's reading of R57 against R28 (DEDUCED, log 11). -/
def Obligations.HostWriteOnlyStoresTheValue : Prop :=
  ∀ (s : State) (rest : List Action) (b : Bytes) (v : Half) (c : BitVec 3) (n : BitVec 4),
    (s.pending = .writePvOp v :: rest →
      step s = .next { s with pending := rest, pv := { s.pv with op := some v } }) ∧
    (s.pending = .writePvBlock v :: rest →
      step s = .next { s with pending := rest, pv := { s.pv with block := some v } }) ∧
    (s.pending = .writePvEcode v :: rest →
      step s = .next { s with pending := rest, pv := { s.pv with ecode := some v } }) ∧
    (s.pending = .writeEvClass c :: rest →
      step s = .next { s with pending := rest, ev := { s.ev with cls := some c } }) ∧
    (s.pending = .writeEvReason n :: rest →
      step s = .next { s with pending := rest, ev := { s.ev with reason := some n } }) ∧
    (b.length ≤ Config.bufMax →
      (s.pending = .writeIn b :: rest → step s = .next { s with pending := rest, inBuf := some b }) ∧
      (s.pending = .writePvFname b :: rest →
        step s = .next { s with pending := rest, pv := { s.pv with fname := some b } }) ∧
      (s.pending = .writePvMode b :: rest →
        step s = .next { s with pending := rest, pv := { s.pv with mode := some b } }) ∧
      (s.pending = .writePvPayload b :: rest →
        step s = .next { s with pending := rest, pv := { s.pv with payload := some b } }) ∧
      (s.pending = .writePvMsg b :: rest →
        step s = .next { s with pending := rest, pv := { s.pv with msg := some b } }) ∧
      (s.pending = .writeEvCtx b :: rest →
        step s = .next { s with pending := rest, ev := { s.ev with ctx := some b } }))

/-- 10_state.md R23: a byte-sequence register holds at most `BUF_MAX` bytes, whatever step is taken, and a host write of
a longer sequence has no step. -/
def Obligations.CapacityIsKeptAndLongerWritesRefused : Prop :=
  (∀ s t : State, CapacityInv s → step s = .next t → CapacityInv t) ∧
  (∀ (s : State) (a : Action) (b : Bytes) (rest : List Action),
    Config.bufMax < b.length → s.pending = a :: rest →
    a ∈ [.writeIn b, .writePvFname b, .writePvMode b, .writePvPayload b, .writePvMsg b, .writeEvCtx b] →
      step s = .refused .overCapacity)

/-- With no action waiting the block is idle and holds its registers (60_exceptions.md R218; that such a step is a step
at all is the model's choice, log 5). -/
def Obligations.IdleBlockHoldsItsRegisters : Prop :=
  ∀ s : State, s.pending = [] → step s = .next s

/-! ### Field primitives -/

/-- 40_field_primitives.md R100, R101: `be16` puts the more significant byte first, and `rd16` reads
`B[i] * 256 + B[i+1]` wherever both bytes exist. -/
def Obligations.SixteenBitFieldsAreBigEndian : Prop :=
  (∀ v : Half, ∃ h l : Byte, be16 v = [h, l] ∧ h.toNat = v.toNat / 256 ∧ l.toNat = v.toNat % 256) ∧
  (∀ (b : Bytes) (i : Nat) (h l : Byte), b[i]? = some h → b[i + 1]? = some l →
    ∃ v, rd16 b i = some v ∧ v.toNat = h.toNat * 256 + l.toNat ∧ memRead b i 2 = some v.toNat)

/-- 00_scope.md R12: `MemRead` is defined exactly inside the bytes, gives the byte itself for one byte and `rd16` for two;
`MemWrite` puts a byte or a big-endian field at its index and leaves every other byte as it was. -/
def Obligations.MemoryPrimitivesStayInBounds : Prop :=
  (∀ (b : Bytes) (a n : Nat), (∃ v, memRead b a n = some v) ↔ a + n ≤ b.length) ∧
  (∀ (b : Bytes) (a : Nat) (x : Byte), b[a]? = some x → memRead b a 1 = some x.toNat) ∧
  (∀ (b : Bytes) (a : Nat) (v : Half), rd16 b a = some v ↔ memRead b a 2 = some v.toNat) ∧
  (∀ (out : Bytes) (a : Nat) (v : Half), a ≤ out.length →
    (memWrite out a 1 v)[a]? = some (v.extractLsb' 0 8) ∧
    (∀ k, k ≠ a → k < out.length → (memWrite out a 1 v)[k]? = out[k]?) ∧
    (memWrite out a 2 v)[a]? = some (v.extractLsb' 8 8) ∧
    (memWrite out a 2 v)[a + 1]? = some (v.extractLsb' 0 8) ∧
    (∀ k, k ≠ a → k ≠ a + 1 → k < out.length → (memWrite out a 2 v)[k]? = out[k]?))

/-- `decimal(v)` of 00_scope.md R16 is the shortest ASCII decimal spelling: digits `'0'` to `'9'` that denote the number,
the first of them not `'0'` unless the number is 0. The spec marks it as general knowledge (log 13). -/
def Obligations.DecimalIsTheShortestSpelling : Prop :=
  ∀ v : Nat,
    (∀ d ∈ decimal v, 0x30 ≤ d.toNat ∧ d.toNat ≤ 0x39) ∧
    (decimal v).foldl (fun n d => n * 10 + (d.toNat - 0x30)) 0 = v ∧
    (v = 0 → decimal v = [0x30]) ∧
    (v ≠ 0 → ∃ d rest, decimal v = d :: rest ∧ d ≠ 0x30)

/-- 40_field_primitives.md R103: `getstr` answers NOTERM exactly when no `0x00` stands at or after the start, and
otherwise the bytes before the first one (`find0`, 00_scope.md R16) and the index after it. -/
def Obligations.GetstrStopsAtTheFirstTerminator : Prop :=
  (∀ (b : Bytes) (i : Nat), getstr b i = none ↔ Claim.noZeroFrom b i) ∧
  (∀ (b : Bytes) (i k : Nat), Claim.firstZeroFrom b i k →
    find0 b i = some k ∧ getstr b i = some (slice b i k, k + 1) ∧ (slice b i k).length = k - i ∧
    ∀ n, n < k - i → (slice b i k)[n]? = b[i + n]?)

/-- The primitives invert each other, the spec's own inference of 40_field_primitives.md ("[derived: from rule R100 and
this rule]", "[derived: from rule R102 and this rule]"): a field written by `be16` reads back at its place, and a
marshalled string without a terminator byte in it is given back, from any prefix and any tail. -/
def Obligations.FieldPrimitivesInvert : Prop :=
  (∀ (p t : Bytes) (v : Half), rd16 (p ++ be16 v ++ t) p.length = some v) ∧
  (∀ s p t : Bytes, Claim.noNul s → getstr (p ++ putstr s ++ t) p.length = some (s, p.length + s.length + 1))

/-! ### Encode commands -/

/-- 41_encode.md R121: ENC.RRQ. -/
def Obligations.EncRrqEncodesAReadRequest : Prop :=
  ∀ s : State,
    (s.pv.fname = none ∨ s.pv.mode = none → exec .encRrq s = .next (Claim.faulted s)) ∧
    ∀ f m : Bytes, s.pv.fname = some f → s.pv.mode = some m →
      (4 + f.length + m.length ≤ Config.bufMax →
        exec .encRrq s = .next (Claim.encodes s ([0x00, 0x01] ++ f ++ [0x00] ++ m ++ [0x00]))) ∧
      (Config.bufMax < 4 + f.length + m.length →
        exec .encRrq s = .next (Claim.encFails s 14 (reasonText .encShortWrite)))

/-- 41_encode.md R122: ENC.WRQ. -/
def Obligations.EncWrqEncodesAWriteRequest : Prop :=
  ∀ s : State,
    (s.pv.fname = none ∨ s.pv.mode = none → exec .encWrq s = .next (Claim.faulted s)) ∧
    ∀ f m : Bytes, s.pv.fname = some f → s.pv.mode = some m →
      (4 + f.length + m.length ≤ Config.bufMax →
        exec .encWrq s = .next (Claim.encodes s ([0x00, 0x02] ++ f ++ [0x00] ++ m ++ [0x00]))) ∧
      (Config.bufMax < 4 + f.length + m.length →
        exec .encWrq s = .next (Claim.encFails s 14 (reasonText .encShortWrite)))

/-- 41_encode.md R123: ENC.DATA. -/
def Obligations.EncDataEncodesADataPacket : Prop :=
  ∀ s : State,
    (s.pv.block = none ∨ s.pv.payload = none → exec .encData s = .next (Claim.faulted s)) ∧
    ∀ (n : Half) (p : Bytes), s.pv.block = some n → s.pv.payload = some p →
      (4 + p.length ≤ Config.bufMax →
        exec .encData s =
          .next (Claim.encodes s ([0x00, 0x03, n.extractLsb' 8 8, n.extractLsb' 0 8] ++ p))) ∧
      (Config.bufMax < 4 + p.length →
        exec .encData s = .next (Claim.encFails s 14 (reasonText .encShortWrite)))

/-- ENC.ACK (41_encode.md R124). Its four bytes always fit, which is the spec's own inference ("ENC_SHORT_WRITE cannot
occur, because `BUF_MAX >= 516 > 4`"). -/
def Obligations.EncAckEncodesAnAck : Prop :=
  ∀ s : State,
    (s.pv.block = none → exec .encAck s = .next (Claim.faulted s)) ∧
    ∀ n : Half, s.pv.block = some n →
      exec .encAck s = .next (Claim.encodes s [0x00, 0x04, n.extractLsb' 8 8, n.extractLsb' 0 8])

/-- 41_encode.md R125: ENC.ERROR; the range check comes before the capacity check. -/
def Obligations.EncErrorEncodesAnErrorPacket : Prop :=
  ∀ s : State,
    (s.pv.ecode = none ∨ s.pv.msg = none → exec .encError s = .next (Claim.faulted s)) ∧
    ∀ (c : Half) (g : Bytes), s.pv.ecode = some c → s.pv.msg = some g →
      (8 ≤ c.toNat → exec .encError s = .next (Claim.encFails s 13 (reasonText .encEcodeRange))) ∧
      (c.toNat ≤ 7 → 5 + g.length ≤ Config.bufMax →
        exec .encError s =
          .next (Claim.encodes s ([0x00, 0x05, c.extractLsb' 8 8, c.extractLsb' 0 8] ++ g ++ [0x00]))) ∧
      (c.toNat ≤ 7 → Config.bufMax < 5 + g.length →
        exec .encError s = .next (Claim.encFails s 14 (reasonText .encShortWrite)))

/-- 41_encode.md R128: an ENC command finishes on every packet value that fits and, for an Error, whose code is at most 7,
whether or not its variant's invariant holds, and emits it byte for byte. -/
def Obligations.EncodeDoesNotValidate : Prop :=
  ∀ (p : Packet) (s : State), Claim.fieldsHeld p s → p.encodedLength ≤ Config.bufMax →
    (∀ c g, p = .error c g → c.toNat ≤ 7) →
      exec (Claim.encOf p) s = .next (Claim.encodes s (Claim.layout p))

/-! ### Decode -/

/-- 42_decode.md R141: fewer than two bytes raise NO_DATA; `00 01` passes this check and fails later with reason 3. -/
def Obligations.DecOfFewerThanTwoBytes : Prop :=
  ∀ (s : State) (b : Bytes), s.inBuf = some b →
    (b.length < 2 → exec .dec s = .next (Claim.decFails s 1 (reasonText .noData))) ∧
    (b = [0x00, 0x01] → exec .dec s = .next (Claim.decFails s 3 (reasonText .reqShort)))

/-- 42_decode.md R142: every opcode outside 1..5 raises UNKNOWN_OPCODE, whatever follows it, with the text that names
it. -/
def Obligations.DecOfAnUnknownOpcode : Prop :=
  ∀ (s : State) (op : Half) (rest : Bytes), s.inBuf = some (be16 op ++ rest) → op = 0 ∨ 6 ≤ op.toNat →
    exec .dec s = .next (Claim.decFails s 2 (reasonText (.unknownOpcode op)))

/-- 42_decode.md R143, R144, R145: the request decoder of the rows WIRE.RRQ and WIRE.WRQ, with its five checks in order
(60_exceptions.md R203, R205) and its result; bytes after the mode's terminator are ignored (30_encoding.md R79). That a row
has this outcome whatever opcode `IN` holds, the dispatcher's checks not being made again, is the model's reading (DEDUCED,
log 6). -/
def Obligations.RequestDecoderChecksInOrder : Prop :=
  ∀ (i : Instr) (op : Half), (i = .wireRrq ∧ op = 1) ∨ (i = .wireWrq ∧ op = 2) →
  ∀ (s : State) (b : Bytes), s.inBuf = some b →
    (b.length < 6 → exec i s = .next (Claim.decFails s 3 (reasonText .reqShort))) ∧
    (6 ≤ b.length → Claim.noZeroFrom b 2 → exec i s = .next (Claim.decFails s 4 (reasonText .fnameNoterm))) ∧
    (6 ≤ b.length → b[2]? = some 0x00 → exec i s = .next (Claim.decFails s 5 (reasonText .fnameBlank))) ∧
    (∀ k, 6 ≤ b.length → 2 < k → Claim.firstZeroFrom b 2 k →
      (Claim.noZeroFrom b (k + 1) → exec i s = .next (Claim.decFails s 6 (reasonText .modeNoterm))) ∧
      (b[k + 1]? = some 0x00 → exec i s = .next (Claim.decFails s 7 (reasonText .modeBlank))) ∧
      (∀ l, k + 1 < l → Claim.firstZeroFrom b (k + 1) l →
        exec i s = .next (Claim.decodes s (Claim.requestPv op (slice b 2 k) (slice b (k + 1) l)))))

/-- 42_decode.md R146: the Data decoder, the meaning of the row WIRE.DATA. That it has this outcome whatever opcode `IN`
holds is the model's reading (DEDUCED, log 6). -/
def Obligations.DataDecoderTakesTheRestAsPayload : Prop :=
  ∀ (s : State) (b : Bytes), s.inBuf = some b →
    (b.length < 4 → exec .wireData s = .next (Claim.decFails s 8 (reasonText .dataShort))) ∧
    (∀ (o1 o2 : Byte) (n : Half) (p : Bytes), b = [o1, o2] ++ be16 n ++ p →
      exec .wireData s = .next (Claim.decodes s (Claim.dataPv n p)))

/-- 42_decode.md R147: the Ack decoder, the meaning of the row WIRE.ACK; the length is exactly four. That it has
this outcome whatever opcode `IN` holds is the model's reading (DEDUCED, log 6). -/
def Obligations.AckDecoderIsStrict : Prop :=
  ∀ (s : State) (b : Bytes), s.inBuf = some b →
    (b.length ≠ 4 → exec .wireAck s = .next (Claim.decFails s 9 (reasonText .ackLen))) ∧
    (∀ (o1 o2 : Byte) (n : Half), b = [o1, o2] ++ be16 n →
      exec .wireAck s = .next (Claim.decodes s (Claim.ackPv n)))

/-- 42_decode.md R148 with `ERR_DECODE_MAX = 7`: the Error decoder, the meaning of the row WIRE.ERROR, its three checks in
order and its result; bytes after the message's terminator are ignored. That it has this outcome whatever opcode `IN` holds
is the model's reading (DEDUCED, log 6). -/
def Obligations.ErrorDecoderChecksInOrder : Prop :=
  ∀ (s : State) (b : Bytes), s.inBuf = some b →
    (b.length < 5 → exec .wireError s = .next (Claim.decFails s 10 (reasonText .errLen))) ∧
    (∀ (o1 o2 : Byte) (c : Half) (body : Bytes), b = [o1, o2] ++ be16 c ++ body → 1 ≤ body.length →
      (8 ≤ c.toNat → exec .wireError s = .next (Claim.decFails s 11 (reasonText (.errCodeRange c)))) ∧
      (c.toNat ≤ 7 → Claim.noNul body →
        exec .wireError s = .next (Claim.decFails s 12 (reasonText .msgNoterm))) ∧
      (∀ g tail : Bytes, c.toNat ≤ 7 → body = g ++ [0x00] ++ tail → Claim.noNul g →
        exec .wireError s = .next (Claim.decodes s (Claim.errorPv c g))))

/-- DEC (42_decode.md R140 to R148) finishes with a packet value exactly when `IN` is that packet's layout with acceptable
fields, followed, in the formats that ignore what follows (30_encoding.md R79), by any bytes. -/
def Obligations.DecAcceptsExactlyTheLayouts : Prop :=
  ∀ (s : State) (b : Bytes) (p : Packet), s.inBuf = some b →
    (exec .dec s = .next (Claim.decodes s (Claim.pvOf p)) ↔
      Claim.accepted 7 p ∧ ∃ tail, b = Claim.layout p ++ tail ∧ (¬ Claim.ignoresTail p → tail = []))

/-- On every input DEC ends in a finish or in a class-4 raise, the spec's own inference of 42_decode.md R149 ("every input
of length 0..`BUF_MAX` ends in `finish` or in a class-4 raise"). -/
def Obligations.DecAlwaysEndsClassified : Prop :=
  ∀ (s : State) (b : Bytes), s.inBuf = some b →
    (∃ p, exec .dec s = .next (Claim.decodes s (Claim.pvOf p))) ∨
    (∃ n text, 1 ≤ n.toNat ∧ n.toNat ≤ 12 ∧ exec .dec s = .next (Claim.decFails s n text))

/-- No instruction and no step reads past the end of a byte sequence, the spec's own inference of 42_decode.md R149 ("No
step of DEC reads `B` at an index `>= n`"); such a read would be the fault `outOfBounds` (log 12). -/
def Obligations.NothingReadsPastTheEnd : Prop :=
  (∀ (i : Instr) (s : State), exec i s ≠ .fault .outOfBounds) ∧ (∀ s : State, step s ≠ .fault .outOfBounds)

/-! ### Round trip -/

/-- Encoding a valid packet value and decoding the result gives it back, by the commands, and by the decoder for either
value of `ERR_DECODE_MAX`: the spec's own inference of 42_decode.md R151 from the property of the source it quotes. -/
def Obligations.EncodeThenDecodeGivesThePacketBack : Prop :=
  (∀ (p : Packet) (s : State), p.valid = true → Claim.fieldsHeld p s →
    ∃ t u, exec (Claim.encOf p) s = .next t ∧ exec .dec { t with inBuf := t.out } = .next u ∧
      u.status = 0x01 ∧ u.pv = Claim.pvOf p) ∧
  (∀ (maxCode : Nat) (p : Packet), maxCode = 7 ∨ maxCode = 8 → p.valid = true →
    decodePacket maxCode (packetBytes p) = .packet p)

/-! ### Error mapping -/

/-- 43_error_mapping.md R174, R175: MAPERR maps every error value, of any of the eight classes, to an Error packet value
in PV, leaves EV alone and never raises. -/
def Obligations.MaperrMapsEveryErrorValue : Prop :=
  ∀ s : State,
    (s.ev.cls = none ∨ s.ev.ctx = none → exec .maperr s = .next (Claim.faulted s)) ∧
    ∀ (c : BitVec 3) (x : Bytes), s.ev.cls = some c → s.ev.ctx = some x →
      (c = 0 → exec .maperr s = .next { s with pv := Claim.errorPv 0 x, status := 0x01 }) ∧
      (c ≠ 0 → exec .maperr s =
        .next { s with pv := Claim.errorPv (BitVec.ofNat 16 c.toNat) (kindText c x), status := 0x01 })

/-- 43_error_mapping.md R173: what is assumed of `KIND_TEXT`, whatever it is: its value depends on no context for kinds 2
and 3 and fits in `PV.MSG`. -/
def Obligations.KindTextMeetsItsConstraints : Prop :=
  ∀ (c : BitVec 3) (x y : Bytes),
    (kindText c x).length ≤ Config.bufMax ∧ (c = 2 ∨ c = 3 → kindText c x = kindText c y)

/-- `REASON_TEXT`, whatever it is (log 2), meets 60_exceptions.md R204's constraints: no context text holds `0x00`, each fits
in `BUF_MAX` bytes, and the one for an unknown opcode names the opcode. R204's default table is one of the choices they
allow. -/
def Obligations.ReasonTextMeetsItsConstraints : Prop :=
  (∀ r : Reason, Claim.noNul (reasonText r) ∧ (reasonText r).length ≤ Config.bufMax) ∧
  (∀ op op' : Half, reasonText (.unknownOpcode op) = reasonText (.unknownOpcode op') → op = op') ∧
  (∃ c : ReasonTexts, c.text = defaultReasonText)

/-- After a MAPERR that maps an error value, ENC.ERROR never raises the range reason: the spec's own inference in 43_error_mapping.md R174's corner
cases ("a following ENC.ERROR never raises ENC_ECODE_RANGE"). -/
def Obligations.EncErrorAfterMaperrIsNeverOutOfRange : Prop :=
  ∀ s t : State, Claim.ready .maperr s → exec .maperr s = .next t →
    ∃ u, exec .encError t = .next u ∧ u.ev.reason ≠ some 13

/-- After a DEC or ENC that raised, MAPERR gives code 4 and the kind's message of the context for a decode failure, and
code 0 and the context verbatim for an encode failure: the spec's own inference of 43_error_mapping.md R176. -/
def Obligations.MaperrReportsTheCodecFailure : Prop :=
  ∀ (i : Instr) (s t : State), Claim.ready i s → exec i s = .next t → t.status = 0x03 →
    ∃ r u, t.ev.ctx = some (reasonText r) ∧ exec .maperr t = .next u ∧ u.pv.op = some 5 ∧
      (isDec i = true → u.pv.ecode = some 4 ∧ u.pv.msg = some (kindText 4 (reasonText r))) ∧
      (isEnc i = true → u.pv.ecode = some 0 ∧ u.pv.msg = some (reasonText r))

/-! ### Outcomes, frames and the invariant -/

/-- 60_exceptions.md R210: an instruction records UNSET_OPERAND exactly when a register it reads holds NONE, and it then
writes no register. -/
def Obligations.UnsetOperandExactlyOnNone : Prop :=
  ∀ (i : Instr) (s : State),
    ((∃ r ∈ operands i, readReg r s = none) → exec i s = .next (Claim.faulted s)) ∧
    (Claim.ready i s → ∃ t, exec i s = .next t ∧ t.fault = s.fault)

/-- 60_exceptions.md R200, 70_reset_and_hazards.md R232, R237: an instruction whose operand registers hold values always
completes, in a finish (`STATUS = 0x01`) or in a raise (`STATUS = 0x03`, EV holding the error). -/
def Obligations.ReadyInstructionsComplete : Prop :=
  ∀ (i : Instr) (s : State), Claim.ready i s →
    ∃ t, exec i s = .next t ∧ t.fault = s.fault ∧
      (t.status = 0x01 ∨
        (t.status = 0x03 ∧ t.ev.cls ≠ none ∧ t.ev.reason ≠ none ∧ t.ev.ctx ≠ none))

/-- 60_exceptions.md R201: which commands raise which errors. A command whose operand holds NONE raises nothing (R210) and is
left out. -/
def Obligations.CommandsRaiseOnlyTheirErrors : Prop :=
  ∀ (i : Instr) (s t : State), Claim.ready i s → exec i s = .next t → t.status = 0x03 →
    i ≠ .encAck ∧ i ≠ .maperr ∧
    (isDec i = true → t.ev.cls = some 4 ∧ ∃ n, t.ev.reason = some n ∧ 1 ≤ n.toNat ∧ n.toNat ≤ 12) ∧
    (i = .encError → t.ev.cls = some 0 ∧ (t.ev.reason = some 13 ∨ t.ev.reason = some 14)) ∧
    (i = .encRrq ∨ i = .encWrq ∨ i = .encData → t.ev.cls = some 0 ∧ t.ev.reason = some 14)

/-- 10_state.md R29: each command writes exactly its registers and invalidates exactly its own. A register outside the
command's list reads as before, `IN`, `CMD` and every register it only reads among them; nothing of the host's changes
either. ENC leaves a packet in `OUT` and EV at NONE, or EV set and `OUT` at NONE; DEC leaves a packet value in PV, the
fields not of its variant NONE, and EV at NONE, or EV set and all of PV at NONE; MAPERR finishes, with the PV fields that
are no Error packet's at NONE. An illegal code changes `STATUS` alone. A command whose operand holds NONE writes no register
(60_exceptions.md R210). -/
def Obligations.CommandsWriteExactlyTheirRegisters : Prop :=
  (∀ (i : Instr) (s t : State), exec i s = .next t →
    (∀ r, r ∉ writes i → readReg r t = readReg r s) ∧
    (∀ r ∈ operands i, r ∉ writes i) ∧
    t.cmd = s.cmd ∧ t.inBuf = s.inBuf ∧ t.pending = s.pending ∧ t.reads = s.reads ∧ t.stream = s.stream ∧ t.nfree = s.nfree ∧
    ((∃ r ∈ operands i, readReg r s = none) → t = Claim.faulted s) ∧
    (Claim.ready i s → t.fault = s.fault) ∧
    (Claim.ready i s → isEnc i = true → t.pv = s.pv ∧
      ((t.status = 0x01 ∧ t.out ≠ none ∧ t.ev = ⟨none, none, none⟩) ∨
       (t.status = 0x03 ∧ t.out = none ∧ t.ev.cls ≠ none ∧ t.ev.reason ≠ none ∧ t.ev.ctx ≠ none))) ∧
    (Claim.ready i s → isDec i = true → t.out = s.out ∧
      ((t.status = 0x01 ∧ t.ev = ⟨none, none, none⟩ ∧ ∃ p, t.pv = Claim.pvOf p) ∨
       (t.status = 0x03 ∧ t.pv = ⟨none, none, none, none, none, none, none⟩ ∧
         t.ev.cls ≠ none ∧ t.ev.reason ≠ none ∧ t.ev.ctx ≠ none))) ∧
    (Claim.ready i s → i = .maperr → t.out = s.out ∧ t.ev = s.ev ∧ t.status = 0x01 ∧ ∃ c g, t.pv = Claim.errorPv c g)) ∧
  (∀ (s : State) (c : Byte) (rest : List Action), s.pending = .writeCmd c :: rest → decodeCommand c = none →
    ∃ t, step s = .next t ∧ t.status = 0x05 ∧ t.cmd = some c ∧
      ∀ r, r ≠ .status → r ≠ .cmd → readReg r t = readReg r s)

/-- 20_memory.md R57: a command run again on the state it left does nothing more. -/
def Obligations.CommandsAreIdempotent : Prop :=
  ∀ (i : Instr) (s t : State), exec i s = .next t → exec i t = .next t

/-- 10_state.md R32, 41_encode.md R127, 42_decode.md R150: what a command writes is a function of its operand registers
alone: on two states that agree on those it ends alike, whatever else the states hold (an earlier error among it,
60_exceptions.md R208). -/
def Obligations.ResultDependsOnOperandsOnly : Prop :=
  ∀ (i : Instr) (s s' t : State), Claim.ready i s → Claim.agree (operands i) s s' → exec i s = .next t →
    ∃ t', exec i s' = .next t' ∧ Claim.agree (writes i) t t'

/-- The invariant holds at reset. -/
def Obligations.ResetMeetsTheInvariant : Prop := Machine.Inv core.reset

/-- Every step keeps the invariant: byte-sequence registers within capacity (10_state.md R23), `STATUS` one of the outcomes'
values (R200), and, in a run that has recorded no fault (R210), `STATUS` describing the last command (R27, R29, R56, R200,
R201). -/
def Obligations.StepKeepsTheInvariant : Prop :=
  ∀ s t : State, Machine.Inv s → step s = .next t → Machine.Inv t

/-- The fields of `STATUS` (10_state.md R27) under the invariant: the reserved bits read as 0, ERR and ILLCMD are never
both 1, DONE is 1 exactly when a command has been written since reset, ILLCMD exactly when the last value written to `CMD`
is no command code, and with ERR = 1 the EV registers hold values. What is said of `CMD` is said of runs that
have recorded no fault (60_exceptions.md R210). -/
def Obligations.StatusFieldsAreConsistent : Prop :=
  ∀ s : State, Machine.Inv s →
    s.status.extractLsb' 3 5 = 0 ∧
    ¬ (s.status.getLsbD 1 = true ∧ s.status.getLsbD 2 = true) ∧
    (NoFault s → (s.status.getLsbD 0 = true ↔ s.cmd ≠ none)) ∧
    (NoFault s → (s.status.getLsbD 2 = true ↔ ∃ c, s.cmd = some c ∧ decodeCommand c = none)) ∧
    (s.status.getLsbD 1 = true → s.ev.cls ≠ none ∧ s.ev.reason ≠ none ∧ s.ev.ctx ≠ none)

/-- What stops a step: a host write beyond the capacity, and nothing else (60_exceptions.md R211). What records a fault: a
command one of whose operand registers holds NONE, and nothing else (R210). That a recorded fault stays for the rest of the
run is the model's reading (DEDUCED, log 15). -/
def Obligations.StepStopsOnlyAsTheSpecSays : Prop :=
  ∀ s : State,
    (∀ f, step s ≠ .fault f) ∧
    (∀ r, step s = .refused r → r = .overCapacity ∧ ∃ a rest, s.pending = a :: rest ∧ a.fits = false) ∧
    (∀ t, step s = .next t → NoFault s → t.fault ≠ none →
      ∃ c rest i, s.pending = .writeCmd c :: rest ∧ decodeCommand c = some i ∧ ∃ r ∈ operands i, readReg r s = none) ∧
    (∀ t, step s = .next t → s.fault ≠ none → t.fault = s.fault)

/-! ### Instances -/

/-- 20_memory.md R62: steps of different instances may run in either order with the same result, and a step of one leaves
every other as it was. The result compared is the whole system, with the values that host reads of NONE have shown. That
these too are the same in either order is the model's choice (DESIGN CHOICE, log 4) and no rule of the spec: R22 and H3 let
such a read show any value. -/
def Obligations.InstancesAreIndependent : Prop :=
  ∀ (j k : Nat) (y y1 : System), j ≠ k → systemStep j y = .next y1 →
    y1.instances[k]? = y.instances[k]? ∧
    ∀ y2, systemStep k y1 = .next y2 →
      ∃ y1', systemStep k y = .next y1' ∧ systemStep j y1' = .next y2

/-- 60_exceptions.md R216: there is at least one instance, and all start together at reset; only the streams that their free
values are drawn from differ, which no command reads (the model's choice, log 4). -/
def Obligations.InstancesStartAtReset : Prop :=
  1 ≤ systemReset.instances.length ∧ ∀ (k : Nat) (s : State), systemReset.instances[k]? = some s →
    s = { State.reset with stream := k } ∧ s.status = 0x00 ∧ ∀ r, r ≠ .status → readReg r s = none

/-! ### DEC on the packets of each variant -/

/-- 42_decode.md R143, R144, R145: DEC of a packet that begins with opcode 1 or 2, its five checks in order and its
result. -/
def Obligations.DecOfARequestChecksInOrder : Prop :=
  ∀ (s : State) (op : Half) (b rest : Bytes), op = 1 ∨ op = 2 → s.inBuf = some b → b = be16 op ++ rest →
    (b.length < 6 → exec .dec s = .next (Claim.decFails s 3 (reasonText .reqShort))) ∧
    (6 ≤ b.length → Claim.noZeroFrom b 2 → exec .dec s = .next (Claim.decFails s 4 (reasonText .fnameNoterm))) ∧
    (6 ≤ b.length → b[2]? = some 0x00 → exec .dec s = .next (Claim.decFails s 5 (reasonText .fnameBlank))) ∧
    (∀ k, 6 ≤ b.length → 2 < k → Claim.firstZeroFrom b 2 k →
      (Claim.noZeroFrom b (k + 1) → exec .dec s = .next (Claim.decFails s 6 (reasonText .modeNoterm))) ∧
      (b[k + 1]? = some 0x00 → exec .dec s = .next (Claim.decFails s 7 (reasonText .modeBlank))) ∧
      (∀ l, k + 1 < l → Claim.firstZeroFrom b (k + 1) l →
        exec .dec s = .next (Claim.decodes s (Claim.requestPv op (slice b 2 k) (slice b (k + 1) l)))))

/-- 42_decode.md R146: DEC of a packet that begins with opcode 3. -/
def Obligations.DecOfADataPacket : Prop :=
  ∀ (s : State) (rest : Bytes), s.inBuf = some ([0x00, 0x03] ++ rest) →
    (rest.length < 2 → exec .dec s = .next (Claim.decFails s 8 (reasonText .dataShort))) ∧
    (∀ (n : Half) (p : Bytes), rest = be16 n ++ p → exec .dec s = .next (Claim.decodes s (Claim.dataPv n p)))

/-- 42_decode.md R147: DEC of a packet that begins with opcode 4. -/
def Obligations.DecOfAnAck : Prop :=
  ∀ (s : State) (rest : Bytes), s.inBuf = some ([0x00, 0x04] ++ rest) →
    (rest.length ≠ 2 → exec .dec s = .next (Claim.decFails s 9 (reasonText .ackLen))) ∧
    (∀ n : Half, rest = be16 n → exec .dec s = .next (Claim.decodes s (Claim.ackPv n)))

/-- 42_decode.md R148: DEC of a packet that begins with opcode 5, by the command with `ERR_DECODE_MAX = 7`, and by the
decoder for the legacy value 8. -/
def Obligations.DecOfAnErrorPacket : Prop :=
  (∀ (s : State) (rest : Bytes), s.inBuf = some ([0x00, 0x05] ++ rest) →
    (rest.length < 3 → exec .dec s = .next (Claim.decFails s 10 (reasonText .errLen))) ∧
    (∀ (c : Half) (body : Bytes), rest = be16 c ++ body → 1 ≤ body.length →
      (8 ≤ c.toNat → exec .dec s = .next (Claim.decFails s 11 (reasonText (.errCodeRange c)))) ∧
      (c.toNat ≤ 7 → Claim.noNul body → exec .dec s = .next (Claim.decFails s 12 (reasonText .msgNoterm))) ∧
      (∀ g tail : Bytes, c.toNat ≤ 7 → body = g ++ [0x00] ++ tail → Claim.noNul g →
        exec .dec s = .next (Claim.decodes s (Claim.errorPv c g))))) ∧
  (∀ (c : Half) (body : Bytes), 1 ≤ body.length →
    (9 ≤ c.toNat → decodePacket 8 ([0x00, 0x05] ++ be16 c ++ body) = .raised (.errCodeRange c)) ∧
    (c.toNat ≤ 8 → Claim.noNul body → decodePacket 8 ([0x00, 0x05] ++ be16 c ++ body) = .raised .msgNoterm) ∧
    (∀ g tail : Bytes, c.toNat ≤ 8 → body = g ++ [0x00] ++ tail → Claim.noNul g →
      decodePacket 8 ([0x00, 0x05] ++ be16 c ++ body) = .packet (.error c g)))

/-! ### Reset and the host -/

/-- What the reset action leaves besides the registers: the fault recorded, the host's later actions, what the host has
read and the model's fields stay as they were. R230 resets the block's registers, and that a reset cancels none of these is the model's choice
(DESIGN CHOICE, log 14 and log 15). -/
def Obligations.ResetKeepsWhatIsNotTheBlocks : Prop :=
  ∀ (s : State) (rest : List Action), s.pending = .reset :: rest →
    step s = .next { core.reset with fault := s.fault, pending := rest, reads := s.reads, stream := s.stream, nfree := s.nfree }
end

