-- ==== Sys2Proof/Laws/Operands.lean ====
section
/-! SUPPORT. The spec lemma of each field primitive: `rd16`, `be16`, `find0`, `getstr`, `putstr` and `memWrite`
(40_field_primitives.md R100 to R103; 00_scope.md R12, R16). -/

namespace Sys2Proof

open Machine

theorem be16_length (v : Half) : (be16 v).length = 2 := rfl

theorem bigEndian_pair (h l : Byte) : bigEndian [h, l] = h.toNat * 256 + l.toNat := by
  simp [bigEndian]

theorem slice_two {b : Bytes} {i : Nat} {h l : Byte} (h0 : b[i]? = some h) (h1 : b[i + 1]? = some l) :
    slice b i (i + 2) = [h, l] := by
  obtain ⟨hi, rfl⟩ := List.getElem?_eq_some_iff.mp h0
  obtain ⟨hj, rfl⟩ := List.getElem?_eq_some_iff.mp h1
  apply List.ext_getElem
  · simp [slice]; omega
  · intro n h2 h3
    simp only [List.length_cons, List.length_nil] at h3
    have : n = 0 ∨ n = 1 := by omega
    rcases this with rfl | rfl <;> simp [slice]

theorem rd16_of_bytes {b : Bytes} {i : Nat} {h l : Byte} (h0 : b[i]? = some h) (h1 : b[i + 1]? = some l) :
    rd16 b i = some (BitVec.ofNat 16 (h.toNat * 256 + l.toNat)) := by
  have hl : i + 2 ≤ b.length := by
    obtain ⟨hj, -⟩ := List.getElem?_eq_some_iff.mp h1
    omega
  simp [rd16, memRead, hl, slice_two h0 h1, bigEndian_pair]

theorem rd16_isSome {b : Bytes} {i : Nat} (hl : i + 2 ≤ b.length) : ∃ v, rd16 b i = some v :=
  ⟨_, by simp [rd16, memRead, hl]; rfl⟩

theorem ofNat_bytes (v : Half) :
    BitVec.ofNat 16 ((v.extractLsb' 8 8).toNat * 256 + (v.extractLsb' 0 8).toNat) = v := by
  apply BitVec.eq_of_toNat_eq
  have := v.isLt
  simp only [BitVec.toNat_ofNat, BitVec.extractLsb'_toNat, Nat.shiftRight_eq_div_pow]
  omega

theorem rd16_append_be16 (p t : Bytes) (v : Half) : rd16 (p ++ be16 v ++ t) p.length = some v := by
  rw [rd16_of_bytes (h := v.extractLsb' 8 8) (l := v.extractLsb' 0 8) (by simp [be16]) (by simp [be16]), ofNat_bytes]

theorem rd16_zero_cons (h l : Byte) (t : Bytes) :
    rd16 (h :: l :: t) 0 = some (BitVec.ofNat 16 (h.toNat * 256 + l.toNat)) := rd16_of_bytes rfl rfl

theorem split_be16 (h l : Byte) : ∃ v : Half, [h, l] = be16 v ∧ v = BitVec.ofNat 16 (h.toNat * 256 + l.toNat) := by
  refine ⟨_, ?_, rfl⟩
  have h1 := h.isLt; have h2 := l.isLt
  simp only [be16, List.cons.injEq, and_true]
  constructor <;> apply BitVec.eq_of_toNat_eq <;>
    simp only [BitVec.toNat_ofNat, BitVec.extractLsb'_toNat, Nat.shiftRight_eq_div_pow] <;> omega

theorem find0_eq_none_iff {b : Bytes} {i : Nat} : find0 b i = none ↔ ∀ k, i ≤ k → b[k]? ≠ some 0x00 := by
  simp only [find0, Option.map_eq_none_iff, List.findIdx?_eq_none_iff, List.mem_iff_getElem?]
  constructor
  · intro h k hk hz
    have := h 0x00 ⟨k - i, by rw [List.getElem?_drop]; rw [show i + (k - i) = k by omega]; exact hz⟩
    simp at this
  · rintro h x ⟨n, hn⟩
    rw [List.getElem?_drop] at hn
    have := h (i + n) (by omega)
    rw [hn] at this
    simpa using this

theorem find0_eq_some_iff {b : Bytes} {i k : Nat} :
    find0 b i = some k ↔ i ≤ k ∧ b[k]? = some 0x00 ∧ ∀ j, i ≤ j → j < k → b[j]? ≠ some 0x00 := by
  simp only [find0, Option.map_eq_some_iff, List.findIdx?_eq_some_iff_getElem]
  constructor
  · rintro ⟨n, ⟨hn, hz, hb⟩, rfl⟩
    simp only [List.length_drop, List.getElem_drop, beq_iff_eq] at hn hz hb
    refine ⟨by omega, ?_, ?_⟩
    · rw [List.getElem?_eq_getElem (by omega), hz]
    · intro j h1 h2 hj
      have := hb (j - i) (by omega)
      simp only [show i + (j - i) = j by omega] at this
      obtain ⟨_, he⟩ := List.getElem?_eq_some_iff.mp hj
      simp [he] at this
  · rintro ⟨h1, h2, h3⟩
    obtain ⟨hk, he⟩ := List.getElem?_eq_some_iff.mp h2
    refine ⟨k - i, ⟨by simp; omega, ?_, ?_⟩, by omega⟩
    · simp [show i + (k - i) = k by omega, he]
    · intro j hj
      have hlt : i + j < b.length := by omega
      have := h3 (i + j) (by omega) (by omega)
      rw [List.getElem?_eq_getElem hlt] at this
      simpa using this

theorem getstr_eq_none_iff {b : Bytes} {i : Nat} : getstr b i = none ↔ ∀ k, i ≤ k → b[k]? ≠ some 0x00 := by
  rw [← find0_eq_none_iff, getstr]
  cases find0 b i <;> simp

theorem getstr_eq_some_iff {b : Bytes} {i : Nat} {f : Bytes} {j : Nat} :
    getstr b i = some (f, j) ↔
      ∃ k, (i ≤ k ∧ b[k]? = some 0x00 ∧ ∀ l, i ≤ l → l < k → b[l]? ≠ some 0x00) ∧ f = slice b i k ∧ j = k + 1 := by
  simp only [← find0_eq_some_iff, getstr]
  cases find0 b i <;> simp [eq_comm]

/-- R103's inverse: a marshalled string without a terminator byte in it is read back from any prefix and tail. -/
theorem getstr_putstr (p s t : Bytes) (hs : (0x00 : Byte) ∉ s) :
    getstr (p ++ putstr s ++ t) p.length = some (s, p.length + s.length + 1) := by
  rw [getstr_eq_some_iff]
  refine ⟨p.length + s.length, ⟨by omega, by simp [putstr], ?_⟩, by simp [putstr, slice, List.take_append], rfl⟩
  intro l h1 h2 hz
  rw [putstr, List.append_assoc, List.getElem?_append_right h1, List.append_assoc,
    List.getElem?_append_left (by omega)] at hz
  exact hs (List.mem_of_getElem? hz)

/-- Every byte string that holds a string field splits at its first terminator. -/
theorem getstr_splits {b : Bytes} {i : Nat} {f : Bytes} {j : Nat} (h : getstr b i = some (f, j)) :
    (0x00 : Byte) ∉ f ∧ j = i + f.length + 1 ∧ j ≤ b.length ∧ b.drop i = putstr f ++ b.drop j := by
  obtain ⟨k, ⟨h1, h2, h3⟩, rfl, rfl⟩ := getstr_eq_some_iff.mp h
  obtain ⟨hk, hz⟩ := List.getElem?_eq_some_iff.mp h2
  have hlen : (slice b i k).length = k - i := by simp [slice]; omega
  refine ⟨?_, by omega, by omega, ?_⟩
  · intro hm
    obtain ⟨n, hn⟩ := List.mem_iff_getElem?.mp hm
    have hn' : n < k - i := hlen ▸ (List.getElem?_eq_some_iff.mp hn).1
    refine h3 (i + n) (by omega) (by omega) ?_
    simpa [slice, List.getElem?_drop, List.getElem?_take, show i + n < k by omega] using hn
  · have e1 : b.drop i = slice b i k ++ b.drop k := by
      rw [slice, List.drop_take]
      conv => lhs; rw [← List.take_append_drop (k - i) (b.drop i)]
      rw [List.drop_drop, Nat.add_sub_cancel' h1]
    have e2 : b.drop k = 0x00 :: b.drop (k + 1) := by rw [List.drop_eq_getElem_cons hk, hz]
    rw [e1, e2, putstr]
    simp

/-- `MemWrite` of a 16-bit field at the end of the sequence appends `be16` (R12, R50). -/
theorem memWrite_half_at_end (out : Bytes) (v : Half) : memWrite out out.length 2 v = out ++ be16 v := by
  simp [memWrite]

/-- `MemWrite` of a byte at the end of the sequence appends it (R12, R50). -/
theorem memWrite_byte_at_end (out : Bytes) (v : Half) :
    memWrite out out.length 1 v = out ++ [v.extractLsb' 0 8] := by
  simp [memWrite]

/-- R101: `rd16` is `MemRead(i, 2)`. -/
theorem rd16_toNat {b : Bytes} {i : Nat} {v : Half} (h : rd16 b i = some v) : memRead b i 2 = some v.toNat := by
  unfold rd16 at h
  obtain ⟨n, hn, rfl⟩ := Option.map_eq_some_iff.mp h
  rw [hn]
  unfold memRead at hn
  split at hn
  · rename_i hl
    have h0 : b[i]? = some b[i] := List.getElem?_eq_getElem (by omega)
    have h1 : b[i + 1]? = some b[i + 1] := List.getElem?_eq_getElem (by omega)
    have x := (b[i]).isLt
    have y := (b[i + 1]).isLt
    simp only [slice_two h0 h1, bigEndian_pair, Option.some.injEq] at hn
    simp only [BitVec.toNat_ofNat, Option.some.injEq]
    omega
  · simp at hn

/-- What the bytes are where a 16-bit field can be read: the ones before it, the field, the ones after it. -/
theorem rd16_splits {b : Bytes} {i : Nat} {v : Half} (h : rd16 b i = some v) :
    i + 2 ≤ b.length ∧ b = b.take i ++ be16 v ++ b.drop (i + 2) := by
  have hl : i + 2 ≤ b.length := by
    by_contra hc
    simp [rd16, memRead, hc] at h
  refine ⟨hl, ?_⟩
  have h0 : b[i]? = some b[i] := List.getElem?_eq_getElem (by omega)
  have h1 : b[i + 1]? = some b[i + 1] := List.getElem?_eq_getElem (by omega)
  rw [rd16_of_bytes h0 h1] at h
  obtain ⟨w, e, e'⟩ := split_be16 b[i] b[i + 1]
  simp only [Option.some.injEq] at h
  rw [← h, ← e', ← e]
  conv => lhs; rw [← List.take_append_drop i b, List.drop_eq_getElem_cons (by omega), List.drop_eq_getElem_cons (by omega)]
  simp

end Sys2Proof
end

