-- ==== Sys2Proof/Laws/Decode.lean ====
section
/-! SUPPORT. The spec lemmas of the decoder: which command codes and which wire opcodes decode, and to what (30_encoding.md
R75, R76, R80, R83). -/

namespace Sys2Proof

open Machine

/-- R80: a code names a command exactly when it is the command's row. -/
theorem decodeCommand_eq_some_iff (c : Byte) (i : Instr) : decodeCommand c = some i ↔ i.space = .command ∧ encode i = [c] := by
  revert c
  cases i <;> decide +kernel

/-- R83: the illegal codes. -/
theorem decodeCommand_eq_none_iff (c : Byte) :
    decodeCommand c = none ↔ c = 0x00 ∨ c = 0x06 ∨ c = 0x07 ∨ 0x0A ≤ c.toNat := by
  revert c
  decide +kernel

/-- R75: an opcode selects a variant exactly when it is the variant's. -/
theorem decodeOpcode_eq_some_iff (op : Half) (v : Variant) : decodeOpcode op = some v ↔ op = v.opcode := by
  constructor
  · intro h
    unfold decodeOpcode at h
    split at h <;> simp only [Option.some.injEq, reduceCtorEq] at h <;> subst h <;>
      exact BitVec.eq_of_toNat_eq ‹_›
  · rintro rfl
    cases v <;> rfl

/-- R76: every opcode outside 1..5 is illegal. -/
theorem decodeOpcode_eq_none_iff (op : Half) : decodeOpcode op = none ↔ op = 0 ∨ 6 ≤ op.toNat := by
  constructor
  · intro h
    unfold decodeOpcode at h
    by_cases h0 : op.toNat = 0
    · exact .inl (BitVec.eq_of_toNat_eq h0)
    · right
      by_contra hc
      obtain h1 | h1 | h1 | h1 | h1 : op.toNat = 1 ∨ op.toNat = 2 ∨ op.toNat = 3 ∨ op.toNat = 4 ∨ op.toNat = 5 := by
        omega
      all_goals simp [h1] at h
  · rintro (rfl | h)
    · rfl
    · unfold decodeOpcode
      split <;> first | rfl | omega

/-- Decoding an opcode word and what follows it. -/
theorem decode_wire_be16 (op : Half) (b : Bytes) :
    decode .wire (be16 op ++ b) =
      match decodeOpcode op with
      | some v => .ok (v.instr, b)
      | none => .error (.unknownOpcode op) := by
  have h := rd16_append_be16 [] b op
  simp only [List.nil_append, List.length_nil] at h
  simp only [decode, h]
  cases decodeOpcode op <;> rfl

/-- A packet decodes to a wire row exactly when its first 16-bit field selects the row's variant. -/
theorem decode_wire_eq_ok_iff {b rest : Bytes} {i : Instr} :
    decode .wire b = .ok (i, rest) ↔
      ∃ op v, rd16 b 0 = some op ∧ decodeOpcode op = some v ∧ i = v.instr ∧ rest = b.drop 2 := by
  simp only [decode]
  cases h : rd16 b 0 with
  | none => simp
  | some op => cases h2 : decodeOpcode op <;> simp [h2, eq_comm]

/-- A command byte decodes to the command it names. -/
theorem decode_command_eq_ok_iff {c : Byte} {i : Instr} {rest : Bytes} :
    decode .command [c] = .ok (i, rest) ↔ decodeCommand c = some i ∧ rest = [] := by
  simp only [decode]
  cases decodeCommand c <;> simp [eq_comm]

end Sys2Proof
end

