-- ==== Sys2Proof/Laws/Decoder.lean ====
section
/-! SUPPORT. The spec lemmas of the decoders (42_decode.md): what each variant decoder answers, on which bytes. -/

namespace Sys2Proof.Machine

/-- The request decoder reads every byte string to an answer (R149). -/
theorem decReq_ne_outOfBounds (mk : Bytes → Bytes → Packet) (b : Bytes) : decReq mk b ≠ .outOfBounds := by
  unfold decReq
  split
  · simp
  split
  · simp
  split
  · simp
  split
  · simp
  split <;> simp

/-- A reason of the decode family (R203): class 4, codes 1 to 12. -/
def isDecodeReason : Reason → Bool
  | .encEcodeRange => false
  | .encShortWrite => false
  | .noData => true
  | .unknownOpcode _ => true
  | .reqShort => true
  | .fnameNoterm => true
  | .fnameBlank => true
  | .modeNoterm => true
  | .modeBlank => true
  | .dataShort => true
  | .ackLen => true
  | .errLen => true
  | .errCodeRange _ => true
  | .msgNoterm => true

theorem decReq_raised {mk : Bytes → Bytes → Packet} {b : Bytes} {r : Reason} (h : decReq mk b = .raised r) :
    isDecodeReason r = true := by
  unfold decReq at h
  repeat' (first | (split at h) | (cases h; rfl) | contradiction)

/-- The request decoder answers a packet exactly on an opcode word, two nonempty strings with their terminators, and
any bytes (R143). -/
theorem decReq_eq_packet_iff {mk : Bytes → Bytes → Packet} {b : Bytes} {p : Packet} :
    decReq mk b = .packet p ↔
      ∃ f m tail, p = mk f m ∧ 1 ≤ f.length ∧ 1 ≤ m.length ∧ (0x00 : Byte) ∉ f ∧ (0x00 : Byte) ∉ m ∧
        2 ≤ b.length ∧ b = b.take 2 ++ putstr f ++ putstr m ++ tail := by
  constructor
  · intro h
    unfold decReq at h
    split at h
    · cases h
    split at h
    · cases h
    rename_i f j hf
    split at h
    · cases h
    split at h
    · cases h
    rename_i m j2 hm
    split at h
    · cases h
    cases h
    obtain ⟨f1, rfl, f3, f4⟩ := getstr_splits hf
    obtain ⟨m1, rfl, m3, m4⟩ := getstr_splits hm
    refine ⟨f, m, b.drop (2 + f.length + 1 + m.length + 1), rfl, by omega, by omega, f1, m1, by omega, ?_⟩
    conv => lhs; rw [← List.take_append_drop 2 b, f4, m4]
    simp
  · rintro ⟨f, m, tail, rfl, hf, hm, hf0, hm0, hb, he⟩
    have hl : b.length = 2 + (f.length + 1) + (m.length + 1) + tail.length := by
      conv => lhs; rw [he]
      simp [putstr]; omega
    have e1 : getstr b 2 = some (f, 2 + f.length + 1) := by
      have := getstr_putstr (b.take 2) f (putstr m ++ tail) hf0
      rw [show (b.take 2).length = 2 by simp; omega] at this
      rw [he]; simpa using this
    have e2 : getstr b (2 + f.length + 1) = some (m, 2 + f.length + 1 + m.length + 1) := by
      have := getstr_putstr (b.take 2 ++ putstr f) m tail hm0
      rw [show (b.take 2 ++ putstr f).length = 2 + f.length + 1 by simp [putstr]; omega] at this
      rw [he]; simpa using this
    unfold decReq
    rw [if_neg (by omega), e1]
    dsimp only
    rw [if_neg (by omega), e2]
    dsimp only
    rw [if_neg (by omega)]

/-- The Data decoder answers a packet exactly on an opcode word and a block number; the payload is the rest (R146). -/
theorem decData_eq_packet_iff {b : Bytes} {p : Packet} :
    decData b = .packet p ↔ ∃ n pay, p = .data n pay ∧ 2 ≤ b.length ∧ b = b.take 2 ++ be16 n ++ pay := by
  unfold decData
  constructor
  · intro h
    split at h
    · cases h
    rename_i hl
    split at h
    · cases h
    rename_i n hn
    cases h
    obtain ⟨-, e⟩ := rd16_splits hn
    exact ⟨n, _, rfl, by omega, by simpa [slice] using e⟩
  · rintro ⟨n, pay, rfl, hb, he⟩
    have hl : b.length = 4 + pay.length := by
      conv => lhs; rw [he]
      simp [be16]; omega
    have hr : rd16 b 2 = some n := by
      have := rd16_append_be16 (b.take 2) pay n
      rwa [← he, show (b.take 2).length = 2 by simp; omega] at this
    have hd : slice b 4 b.length = pay := by
      rw [slice, List.take_length]
      have hx : (b.take 2 ++ be16 n).length = 4 := by simp [be16]; omega
      have := List.drop_left (l₁ := b.take 2 ++ be16 n) (l₂ := pay)
      rwa [← he, hx] at this
    rw [if_neg (by omega), hr]
    simp [hd]

/-- The Ack decoder answers a packet exactly on an opcode word and a block number (R147). -/
theorem decAck_eq_packet_iff {b : Bytes} {p : Packet} :
    decAck b = .packet p ↔ ∃ n, p = .ack n ∧ 2 ≤ b.length ∧ b = b.take 2 ++ be16 n := by
  unfold decAck
  constructor
  · intro h
    split at h
    · cases h
    rename_i hl
    split at h
    · cases h
    rename_i n hn
    cases h
    obtain ⟨-, e⟩ := rd16_splits hn
    rw [List.drop_eq_nil_of_le (by omega)] at e
    exact ⟨n, rfl, by omega, by simpa using e⟩
  · rintro ⟨n, rfl, hb, he⟩
    have hl : b.length = 4 := by
      conv => lhs; rw [he]
      simp [be16]; omega
    have hr : rd16 b 2 = some n := by
      have := rd16_append_be16 (b.take 2) [] n
      rwa [List.append_nil, ← he, show (b.take 2).length = 2 by simp; omega] at this
    rw [if_neg (by omega), hr]

/-- The Error decoder answers a packet exactly on an opcode word, an accepted code, a terminated message and any bytes
(R148). -/
theorem decError_eq_packet_iff {maxCode : Nat} {b : Bytes} {p : Packet} :
    decError maxCode b = .packet p ↔
      ∃ c g tail, p = .error c g ∧ c.toNat ≤ maxCode ∧ (0x00 : Byte) ∉ g ∧
        2 ≤ b.length ∧ b = b.take 2 ++ be16 c ++ putstr g ++ tail := by
  unfold decError
  constructor
  · intro h
    split at h
    · cases h
    rename_i hl
    split at h
    · cases h
    rename_i c hc
    split at h
    · cases h
    rename_i hm
    split at h
    · cases h
    rename_i g j hg
    cases h
    obtain ⟨-, e⟩ := rd16_splits hc
    obtain ⟨g1, rfl, g3, g4⟩ := getstr_splits hg
    refine ⟨c, g, b.drop (4 + g.length + 1), rfl, by omega, g1, by omega, ?_⟩
    have h4 : b.take 4 = b.take 2 ++ be16 c := by
      conv => lhs; rw [e]
      rw [List.take_append, List.take_of_length_le (by simp [be16])]
      simp [be16]; omega
    rw [← h4]
    conv => lhs; rw [← List.take_append_drop 4 b, g4]
    simp
  · rintro ⟨c, g, tail, rfl, hc, hg0, hb, he⟩
    have hl : b.length = 4 + (g.length + 1) + tail.length := by
      conv => lhs; rw [he]
      simp [be16, putstr]; omega
    have hr : rd16 b 2 = some c := by
      have := rd16_append_be16 (b.take 2) (putstr g ++ tail) c
      rw [show (b.take 2).length = 2 by simp; omega] at this
      rw [he]; simpa using this
    have e1 : getstr b 4 = some (g, 4 + g.length + 1) := by
      have := getstr_putstr (b.take 2 ++ be16 c) g tail hg0
      rw [show (b.take 2 ++ be16 c).length = 4 by simp [be16]; omega] at this
      rw [he]; simpa using this
    rw [if_neg (by omega), hr]
    dsimp only
    rw [if_neg (by omega), e1]

/-- No variant decoder reads past the end (R149). -/
theorem decVariant_ne_outOfBounds (maxCode : Nat) (v : Variant) (b : Bytes) : decVariant maxCode v b ≠ .outOfBounds := by
  cases v with
  | rrq => exact decReq_ne_outOfBounds _ b
  | wrq => exact decReq_ne_outOfBounds _ b
  | data =>
    simp only [decVariant, decData]
    split
    · simp
    · obtain ⟨v, hv⟩ := rd16_isSome (b := b) (i := 2) (by omega)
      simp [hv]
  | ack =>
    simp only [decVariant, decAck]
    split
    · simp
    · obtain ⟨v, hv⟩ := rd16_isSome (b := b) (i := 2) (by omega)
      simp [hv]
  | error =>
    simp only [decVariant, decError]
    split
    · simp
    · obtain ⟨v, hv⟩ := rd16_isSome (b := b) (i := 2) (by omega)
      simp only [hv]
      split
      · simp
      split <;> simp

/-- A variant decoder raises only reasons of the decode family (R201). -/
theorem decVariant_raised {maxCode : Nat} {v : Variant} {b : Bytes} {r : Reason}
    (h : decVariant maxCode v b = .raised r) : isDecodeReason r = true := by
  cases v with
  | rrq => exact decReq_raised h
  | wrq => exact decReq_raised h
  | data =>
    simp only [decVariant, decData] at h
    repeat' (first | (split at h) | (cases h; rfl) | contradiction)
  | ack =>
    simp only [decVariant, decAck] at h
    repeat' (first | (split at h) | (cases h; rfl) | contradiction)
  | error =>
    simp only [decVariant, decError] at h
    repeat' (first | (split at h) | (cases h; rfl) | contradiction)

/-- The dispatcher on bytes whose opcode word selects a variant (R140). -/
theorem decodePacket_of_opcode {maxCode : Nat} {b : Bytes} {op : Half} {v : Variant}
    (h : rd16 b 0 = some op) (hv : decodeOpcode op = some v) : decodePacket maxCode b = decVariant maxCode v b := by
  obtain ⟨hl, -⟩ := rd16_splits h
  unfold decodePacket
  rw [if_neg (by omega), h]
  simp only [hv]

/-- What the dispatcher does, in full: too few bytes, an unknown opcode, or the selected variant's decoder (R140). -/
theorem decodePacket_cases (maxCode : Nat) (b : Bytes) :
    (b.length < 2 ∧ decodePacket maxCode b = .raised .noData) ∨
    (∃ op, rd16 b 0 = some op ∧ decodeOpcode op = none ∧ decodePacket maxCode b = .raised (.unknownOpcode op)) ∨
    (∃ op v, rd16 b 0 = some op ∧ decodeOpcode op = some v ∧ decodePacket maxCode b = decVariant maxCode v b) := by
  by_cases hl : b.length < 2
  · exact .inl ⟨hl, by simp [decodePacket, hl]⟩
  · obtain ⟨op, hop⟩ := rd16_isSome (b := b) (i := 0) (by omega)
    cases hv : decodeOpcode op with
    | none => exact .inr (.inl ⟨op, hop, hv, by simp [decodePacket, hl, hop, hv]⟩)
    | some v => exact .inr (.inr ⟨op, v, hop, hv, decodePacket_of_opcode hop hv⟩)

end Sys2Proof.Machine
end

