-- ==== Sys2Proof/Laws/State.lean ====
section
/-! SUPPORT. One lemma per field per named update of the state, so that no later proof unfolds a record update. -/

namespace Sys2Proof.Machine

/-! ### `invalidateOut` -/

@[simp] theorem invalidateOut_cmd (s : State) : (invalidateOut s).cmd = s.cmd := rfl
@[simp] theorem invalidateOut_status (s : State) : (invalidateOut s).status = s.status := rfl
@[simp] theorem invalidateOut_inBuf (s : State) : (invalidateOut s).inBuf = s.inBuf := rfl
@[simp] theorem invalidateOut_out (s : State) : (invalidateOut s).out = none := rfl
@[simp] theorem invalidateOut_pv (s : State) : (invalidateOut s).pv = s.pv := rfl
@[simp] theorem invalidateOut_ev (s : State) : (invalidateOut s).ev = s.ev := rfl
@[simp] theorem invalidateOut_pending (s : State) : (invalidateOut s).pending = s.pending := rfl
@[simp] theorem invalidateOut_reads (s : State) : (invalidateOut s).reads = s.reads := rfl
@[simp] theorem invalidateOut_nfree (s : State) : (invalidateOut s).nfree = s.nfree := rfl
@[simp] theorem invalidateOut_fault (s : State) : (invalidateOut s).fault = s.fault := rfl
@[simp] theorem invalidateOut_stream (s : State) : (invalidateOut s).stream = s.stream := rfl

/-! ### `invalidatePv` -/

@[simp] theorem invalidatePv_cmd (s : State) : (invalidatePv s).cmd = s.cmd := rfl
@[simp] theorem invalidatePv_status (s : State) : (invalidatePv s).status = s.status := rfl
@[simp] theorem invalidatePv_inBuf (s : State) : (invalidatePv s).inBuf = s.inBuf := rfl
@[simp] theorem invalidatePv_out (s : State) : (invalidatePv s).out = s.out := rfl
@[simp] theorem invalidatePv_pv (s : State) : (invalidatePv s).pv = PacketValue.none := rfl
@[simp] theorem invalidatePv_ev (s : State) : (invalidatePv s).ev = s.ev := rfl
@[simp] theorem invalidatePv_pending (s : State) : (invalidatePv s).pending = s.pending := rfl
@[simp] theorem invalidatePv_reads (s : State) : (invalidatePv s).reads = s.reads := rfl
@[simp] theorem invalidatePv_nfree (s : State) : (invalidatePv s).nfree = s.nfree := rfl
@[simp] theorem invalidatePv_fault (s : State) : (invalidatePv s).fault = s.fault := rfl
@[simp] theorem invalidatePv_stream (s : State) : (invalidatePv s).stream = s.stream := rfl

/-! ### `invalidateEv` -/

@[simp] theorem invalidateEv_cmd (s : State) : (invalidateEv s).cmd = s.cmd := rfl
@[simp] theorem invalidateEv_status (s : State) : (invalidateEv s).status = s.status := rfl
@[simp] theorem invalidateEv_inBuf (s : State) : (invalidateEv s).inBuf = s.inBuf := rfl
@[simp] theorem invalidateEv_out (s : State) : (invalidateEv s).out = s.out := rfl
@[simp] theorem invalidateEv_pv (s : State) : (invalidateEv s).pv = s.pv := rfl
@[simp] theorem invalidateEv_ev (s : State) : (invalidateEv s).ev = ErrorValue.none := rfl
@[simp] theorem invalidateEv_pending (s : State) : (invalidateEv s).pending = s.pending := rfl
@[simp] theorem invalidateEv_reads (s : State) : (invalidateEv s).reads = s.reads := rfl
@[simp] theorem invalidateEv_nfree (s : State) : (invalidateEv s).nfree = s.nfree := rfl
@[simp] theorem invalidateEv_fault (s : State) : (invalidateEv s).fault = s.fault := rfl
@[simp] theorem invalidateEv_stream (s : State) : (invalidateEv s).stream = s.stream := rfl

/-! ### `raise` -/

@[simp] theorem raise_cmd (r : Reason) (s : State) : (raise r s).cmd = s.cmd := rfl
@[simp] theorem raise_status (r : Reason) (s : State) : (raise r s).status = 0x03 := rfl
@[simp] theorem raise_inBuf (r : Reason) (s : State) : (raise r s).inBuf = s.inBuf := rfl
@[simp] theorem raise_out (r : Reason) (s : State) : (raise r s).out = s.out := rfl
@[simp] theorem raise_pv (r : Reason) (s : State) : (raise r s).pv = s.pv := rfl
@[simp] theorem raise_ev (r : Reason) (s : State) : (raise r s).ev = ⟨some (kindCode (reasonKind r)), some (reasonCode r), some (reasonText r)⟩ := rfl
@[simp] theorem raise_pending (r : Reason) (s : State) : (raise r s).pending = s.pending := rfl
@[simp] theorem raise_reads (r : Reason) (s : State) : (raise r s).reads = s.reads := rfl
@[simp] theorem raise_nfree (r : Reason) (s : State) : (raise r s).nfree = s.nfree := rfl
@[simp] theorem raise_fault (r : Reason) (s : State) : (raise r s).fault = s.fault := rfl
@[simp] theorem raise_stream (r : Reason) (s : State) : (raise r s).stream = s.stream := rfl

/-! ### `finish` -/

@[simp] theorem finish_cmd (s : State) : (finish s).cmd = s.cmd := rfl
@[simp] theorem finish_status (s : State) : (finish s).status = 0x01 := rfl
@[simp] theorem finish_inBuf (s : State) : (finish s).inBuf = s.inBuf := rfl
@[simp] theorem finish_out (s : State) : (finish s).out = s.out := rfl
@[simp] theorem finish_pv (s : State) : (finish s).pv = s.pv := rfl
@[simp] theorem finish_ev (s : State) : (finish s).ev = s.ev := rfl
@[simp] theorem finish_pending (s : State) : (finish s).pending = s.pending := rfl
@[simp] theorem finish_reads (s : State) : (finish s).reads = s.reads := rfl
@[simp] theorem finish_nfree (s : State) : (finish s).nfree = s.nfree := rfl
@[simp] theorem finish_fault (s : State) : (finish s).fault = s.fault := rfl
@[simp] theorem finish_stream (s : State) : (finish s).stream = s.stream := rfl

/-! ### `writeOut` -/

@[simp] theorem writeOut_cmd (b : Bytes) (s : State) : (writeOut b s).cmd = s.cmd := rfl
@[simp] theorem writeOut_status (b : Bytes) (s : State) : (writeOut b s).status = s.status := rfl
@[simp] theorem writeOut_inBuf (b : Bytes) (s : State) : (writeOut b s).inBuf = s.inBuf := rfl
@[simp] theorem writeOut_out (b : Bytes) (s : State) : (writeOut b s).out = some b := rfl
@[simp] theorem writeOut_pv (b : Bytes) (s : State) : (writeOut b s).pv = s.pv := rfl
@[simp] theorem writeOut_ev (b : Bytes) (s : State) : (writeOut b s).ev = s.ev := rfl
@[simp] theorem writeOut_pending (b : Bytes) (s : State) : (writeOut b s).pending = s.pending := rfl
@[simp] theorem writeOut_reads (b : Bytes) (s : State) : (writeOut b s).reads = s.reads := rfl
@[simp] theorem writeOut_nfree (b : Bytes) (s : State) : (writeOut b s).nfree = s.nfree := rfl
@[simp] theorem writeOut_fault (b : Bytes) (s : State) : (writeOut b s).fault = s.fault := rfl
@[simp] theorem writeOut_stream (b : Bytes) (s : State) : (writeOut b s).stream = s.stream := rfl

/-! ### `writePacket` -/

@[simp] theorem writePacket_cmd (p : Packet) (s : State) : (writePacket p s).cmd = s.cmd := rfl
@[simp] theorem writePacket_status (p : Packet) (s : State) : (writePacket p s).status = s.status := rfl
@[simp] theorem writePacket_inBuf (p : Packet) (s : State) : (writePacket p s).inBuf = s.inBuf := rfl
@[simp] theorem writePacket_out (p : Packet) (s : State) : (writePacket p s).out = s.out := rfl
@[simp] theorem writePacket_pv (p : Packet) (s : State) : (writePacket p s).pv = packetRegs p := rfl
@[simp] theorem writePacket_ev (p : Packet) (s : State) : (writePacket p s).ev = s.ev := rfl
@[simp] theorem writePacket_pending (p : Packet) (s : State) : (writePacket p s).pending = s.pending := rfl
@[simp] theorem writePacket_reads (p : Packet) (s : State) : (writePacket p s).reads = s.reads := rfl
@[simp] theorem writePacket_nfree (p : Packet) (s : State) : (writePacket p s).nfree = s.nfree := rfl
@[simp] theorem writePacket_fault (p : Packet) (s : State) : (writePacket p s).fault = s.fault := rfl
@[simp] theorem writePacket_stream (p : Packet) (s : State) : (writePacket p s).stream = s.stream := rfl

/-! ### `illegalCommand` -/

@[simp] theorem illegalCommand_cmd (s : State) : (illegalCommand s).cmd = s.cmd := rfl
@[simp] theorem illegalCommand_status (s : State) : (illegalCommand s).status = 0x05 := rfl
@[simp] theorem illegalCommand_inBuf (s : State) : (illegalCommand s).inBuf = s.inBuf := rfl
@[simp] theorem illegalCommand_out (s : State) : (illegalCommand s).out = s.out := rfl
@[simp] theorem illegalCommand_pv (s : State) : (illegalCommand s).pv = s.pv := rfl
@[simp] theorem illegalCommand_ev (s : State) : (illegalCommand s).ev = s.ev := rfl
@[simp] theorem illegalCommand_pending (s : State) : (illegalCommand s).pending = s.pending := rfl
@[simp] theorem illegalCommand_reads (s : State) : (illegalCommand s).reads = s.reads := rfl
@[simp] theorem illegalCommand_nfree (s : State) : (illegalCommand s).nfree = s.nfree := rfl
@[simp] theorem illegalCommand_fault (s : State) : (illegalCommand s).fault = s.fault := rfl
@[simp] theorem illegalCommand_stream (s : State) : (illegalCommand s).stream = s.stream := rfl

/-! ### `recordUnsetOperand` -/

@[simp] theorem recordUnsetOperand_cmd (s : State) : (recordUnsetOperand s).cmd = s.cmd := rfl
@[simp] theorem recordUnsetOperand_status (s : State) : (recordUnsetOperand s).status = s.status := rfl
@[simp] theorem recordUnsetOperand_inBuf (s : State) : (recordUnsetOperand s).inBuf = s.inBuf := rfl
@[simp] theorem recordUnsetOperand_out (s : State) : (recordUnsetOperand s).out = s.out := rfl
@[simp] theorem recordUnsetOperand_pv (s : State) : (recordUnsetOperand s).pv = s.pv := rfl
@[simp] theorem recordUnsetOperand_ev (s : State) : (recordUnsetOperand s).ev = s.ev := rfl
@[simp] theorem recordUnsetOperand_pending (s : State) : (recordUnsetOperand s).pending = s.pending := rfl
@[simp] theorem recordUnsetOperand_reads (s : State) : (recordUnsetOperand s).reads = s.reads := rfl
@[simp] theorem recordUnsetOperand_stream (s : State) : (recordUnsetOperand s).stream = s.stream := rfl
@[simp] theorem recordUnsetOperand_nfree (s : State) : (recordUnsetOperand s).nfree = s.nfree := rfl
@[simp] theorem recordUnsetOperand_fault (s : State) : (recordUnsetOperand s).fault = some .unsetOperand := rfl

/-! ### `raiseEnc` -/

@[simp] theorem raiseEnc_cmd (r : Reason) (s : State) : (raiseEnc r s).cmd = s.cmd := rfl
@[simp] theorem raiseEnc_status (r : Reason) (s : State) : (raiseEnc r s).status = 0x03 := rfl
@[simp] theorem raiseEnc_inBuf (r : Reason) (s : State) : (raiseEnc r s).inBuf = s.inBuf := rfl
@[simp] theorem raiseEnc_out (r : Reason) (s : State) : (raiseEnc r s).out = none := rfl
@[simp] theorem raiseEnc_pv (r : Reason) (s : State) : (raiseEnc r s).pv = s.pv := rfl
@[simp] theorem raiseEnc_ev (r : Reason) (s : State) : (raiseEnc r s).ev = ⟨some (kindCode (reasonKind r)), some (reasonCode r), some (reasonText r)⟩ := rfl
@[simp] theorem raiseEnc_pending (r : Reason) (s : State) : (raiseEnc r s).pending = s.pending := rfl
@[simp] theorem raiseEnc_reads (r : Reason) (s : State) : (raiseEnc r s).reads = s.reads := rfl
@[simp] theorem raiseEnc_nfree (r : Reason) (s : State) : (raiseEnc r s).nfree = s.nfree := rfl
@[simp] theorem raiseEnc_fault (r : Reason) (s : State) : (raiseEnc r s).fault = s.fault := rfl
@[simp] theorem raiseEnc_stream (r : Reason) (s : State) : (raiseEnc r s).stream = s.stream := rfl

/-! ### `raiseDec` -/

@[simp] theorem raiseDec_cmd (r : Reason) (s : State) : (raiseDec r s).cmd = s.cmd := rfl
@[simp] theorem raiseDec_status (r : Reason) (s : State) : (raiseDec r s).status = 0x03 := rfl
@[simp] theorem raiseDec_inBuf (r : Reason) (s : State) : (raiseDec r s).inBuf = s.inBuf := rfl
@[simp] theorem raiseDec_out (r : Reason) (s : State) : (raiseDec r s).out = s.out := rfl
@[simp] theorem raiseDec_pv (r : Reason) (s : State) : (raiseDec r s).pv = PacketValue.none := rfl
@[simp] theorem raiseDec_ev (r : Reason) (s : State) : (raiseDec r s).ev = ⟨some (kindCode (reasonKind r)), some (reasonCode r), some (reasonText r)⟩ := rfl
@[simp] theorem raiseDec_pending (r : Reason) (s : State) : (raiseDec r s).pending = s.pending := rfl
@[simp] theorem raiseDec_reads (r : Reason) (s : State) : (raiseDec r s).reads = s.reads := rfl
@[simp] theorem raiseDec_nfree (r : Reason) (s : State) : (raiseDec r s).nfree = s.nfree := rfl
@[simp] theorem raiseDec_fault (r : Reason) (s : State) : (raiseDec r s).fault = s.fault := rfl
@[simp] theorem raiseDec_stream (r : Reason) (s : State) : (raiseDec r s).stream = s.stream := rfl

/-! ### `decFinish` -/

@[simp] theorem decFinish_cmd (p : Packet) (s : State) : (decFinish p s).cmd = s.cmd := rfl
@[simp] theorem decFinish_status (p : Packet) (s : State) : (decFinish p s).status = 0x01 := rfl
@[simp] theorem decFinish_inBuf (p : Packet) (s : State) : (decFinish p s).inBuf = s.inBuf := rfl
@[simp] theorem decFinish_out (p : Packet) (s : State) : (decFinish p s).out = s.out := rfl
@[simp] theorem decFinish_pv (p : Packet) (s : State) : (decFinish p s).pv = packetRegs p := rfl
@[simp] theorem decFinish_ev (p : Packet) (s : State) : (decFinish p s).ev = ErrorValue.none := rfl
@[simp] theorem decFinish_pending (p : Packet) (s : State) : (decFinish p s).pending = s.pending := rfl
@[simp] theorem decFinish_reads (p : Packet) (s : State) : (decFinish p s).reads = s.reads := rfl
@[simp] theorem decFinish_nfree (p : Packet) (s : State) : (decFinish p s).nfree = s.nfree := rfl
@[simp] theorem decFinish_fault (p : Packet) (s : State) : (decFinish p s).fault = s.fault := rfl
@[simp] theorem decFinish_stream (p : Packet) (s : State) : (decFinish p s).stream = s.stream := rfl

end Sys2Proof.Machine
end

