-- ==== Sys2Proof/Laws/Texts.lean ====
section
/-! SUPPORT. The spec lemmas of the texts: the decimal spelling (00_scope.md R16) can be read back, and every context text
and formatted message is within its bounds (60_exceptions.md R204, 43_error_mapping.md R173). -/

namespace Sys2Proof.Machine

/-- Reading decimal digits back into a number, from the number read so far. -/
def readDigits (acc : Nat) (b : Bytes) : Nat := b.foldl (fun a d => a * 10 + (d.toNat - 0x30)) acc

theorem readDigits_decimalDigits (fuel v : Nat) (tail : Bytes) (h : v < fuel) :
    readDigits 0 (decimalDigits fuel v tail) = readDigits v tail := by
  induction fuel generalizing v tail with
  | zero => omega
  | succ n ih =>
    have hd : (BitVec.ofNat 8 (0x30 + v % 10)).toNat - 0x30 = v % 10 := by
      rw [BitVec.toNat_ofNat, Nat.mod_eq_of_lt (by omega)]; omega
    simp only [decimalDigits]
    split
    · simp only [readDigits, List.foldl_cons, hd]
      rw [show 0 * 10 + v % 10 = v by omega]
    · rw [ih _ _ (by omega)]
      simp only [readDigits, List.foldl_cons, hd]
      rw [show v / 10 * 10 + v % 10 = v by omega]

/-- `decimal` names its number: different numbers are spelled differently. -/
theorem decimal_injective {v w : Nat} (h : decimal v = decimal w) : v = w := by
  have := congrArg (readDigits 0) h
  rwa [decimal, decimal, readDigits_decimalDigits _ _ _ (by omega), readDigits_decimalDigits _ _ _ (by omega)] at this

theorem decimalDigits_length_le (fuel v k : Nat) (tail : Bytes) (h : v < 10 ^ (k + 1)) :
    (decimalDigits fuel v tail).length ≤ k + 1 + tail.length := by
  induction fuel generalizing v k tail with
  | zero => simp [decimalDigits]
  | succ n ih =>
    simp only [decimalDigits]
    split
    · simp
    · rename_i hne
      cases k with
      | zero => omega
      | succ k =>
        have := ih (v / 10) k (BitVec.ofNat 8 (0x30 + v % 10) :: tail) (by rw [pow_succ] at h; omega)
        simp only [List.length_cons] at this
        omega

/-- A 16-bit value has at most five decimal digits. -/
theorem decimal_half_length_le (v : Half) : (decimal v.toNat).length ≤ 5 := by
  exact decimalDigits_length_le (v.toNat + 1) v.toNat 4 [] (by have := v.isLt; omega)

theorem zero_not_mem_decimalDigits (fuel v : Nat) (tail : Bytes) (h : (0x00 : Byte) ∉ tail) :
    (0x00 : Byte) ∉ decimalDigits fuel v tail := by
  induction fuel generalizing v tail with
  | zero => simpa [decimalDigits] using h
  | succ n ih =>
    have hd : (0x00 : Byte) ∉ BitVec.ofNat 8 (0x30 + v % 10) :: tail := by
      simp only [List.mem_cons, h, or_false]
      intro hc
      have := congrArg BitVec.toNat hc
      rw [BitVec.toNat_ofNat, Nat.mod_eq_of_lt (by omega)] at this
      exact absurd this (by change 0 ≠ _; omega)
    simp only [decimalDigits]
    split
    · exact hd
    · exact ih _ _ hd

/-- Every context text of the default table is short. -/
theorem defaultReasonText_length_le (r : Reason) : (defaultReasonText r).length ≤ 28 := by
  cases r with
  | unknownOpcode op =>
    have := decimal_half_length_le op
    have h2 : (ascii "unknown opcode: ").length = 16 := by decide
    simp only [defaultReasonText, List.length_append, h2]; omega
  | errCodeRange c =>
    have := decimal_half_length_le c
    have h2 : (ascii "invalid error code: ").length = 20 := by decide
    simp only [defaultReasonText, List.length_append, h2]; omega
  | _ => decide

/-- Every context text fits in `EV.CTX` (R204). -/
theorem reasonText_fits (r : Reason) : (reasonText r).length ≤ Config.bufMax :=
  Config.reasonTexts.fits r

/-- Every formatted message fits in `PV.MSG` (R173). -/
theorem kindText_fits (c : BitVec 3) (x : Bytes) : (kindText c x).length ≤ Config.bufMax := by
  simp [kindText]

end Sys2Proof.Machine
end

