-- ==== Sys2Proof/Laws/Exec.lean ====
section
/-! SUPPORT. What the shared endings of a command can do, and what an instruction can do: the inversion lemmas that a proof
cites instead of unfolding a meaning (10_state.md R29, 41_encode.md R120, 42_decode.md R140, 43_error_mapping.md R174). -/

namespace Sys2Proof.Machine

/-- `BUF_MAX` is at least 516 (00_scope.md R8). -/
theorem bufMax_ge : 516 ≤ Config.bufMax := Nat.le_add_left _ _

/-- `ENC_FINISH` of a packet that fits (R120). -/
theorem encFinish_of_le {out : Bytes} {s : State} (h : out.length ≤ Config.bufMax) :
    encFinish out s = { s with out := some out, ev := .none, status := 0x01 } := by
  rw [encFinish, if_neg (by omega)]; rfl

/-- `ENC_FINISH` of a packet that does not fit (R120, R126). -/
theorem encFinish_of_lt {out : Bytes} {s : State} (h : Config.bufMax < out.length) :
    encFinish out s = raiseEnc .encShortWrite s := by
  rw [encFinish, if_pos h]

/-- The encoded length of a packet is R120's. -/
theorem packetBytes_length (p : Packet) : (packetBytes p).length = p.encodedLength := by
  cases p <;> simp [packetBytes, Packet.encodedLength, putstr, be16] <;> omega

/-- A decoder's run records a fault on an unset `IN` and otherwise ends as the decoder does. -/
theorem runDecoder_of_some {d : Bytes → Decoded} {s : State} {b : Bytes} (h : s.inBuf = some b) :
    runDecoder d s = deliver (d b) s := by
  simp [runDecoder, h]

theorem runDecoder_of_none {d : Bytes → Decoded} {s : State} (h : s.inBuf = none) :
    runDecoder d s = .next (recordUnsetOperand s) := by
  simp [runDecoder, h]

/-- The decoder that an instruction of the decode family runs. -/
def decoderOf : Instr → Option (Bytes → Decoded)
  | .dec => some (decodePacket Config.errDecodeMax)
  | .wireRrq => some (decVariant Config.errDecodeMax .rrq)
  | .wireWrq => some (decVariant Config.errDecodeMax .wrq)
  | .wireData => some (decVariant Config.errDecodeMax .data)
  | .wireAck => some (decVariant Config.errDecodeMax .ack)
  | .wireError => some (decVariant Config.errDecodeMax .error)
  | .encRrq => none
  | .encWrq => none
  | .encData => none
  | .encAck => none
  | .encError => none
  | .maperr => none

theorem exec_of_decoder {i : Instr} {d : Bytes → Decoded} (h : decoderOf i = some d) (s : State) :
    exec i s = runDecoder d s := by
  cases i <;> simp only [decoderOf, Option.some.injEq, reduceCtorEq] at h <;> subst h <;> rfl

theorem decoderOf_isSome (i : Instr) : (decoderOf i).isSome = isDec i := by cases i <;> rfl

/-- DEC's dispatcher reads every byte string to an answer (R149). -/
theorem decodePacket_ne_outOfBounds (maxCode : Nat) (b : Bytes) : decodePacket maxCode b ≠ .outOfBounds := by
  obtain ⟨-, h⟩ | ⟨op, -, -, h⟩ | ⟨op, v, -, -, h⟩ := decodePacket_cases maxCode b <;> rw [h]
  · simp
  · simp
  · exact decVariant_ne_outOfBounds _ _ _

/-- DEC raises only reasons of the decode family (R201). -/
theorem decodePacket_raised {maxCode : Nat} {b : Bytes} {r : Reason} (hr : decodePacket maxCode b = .raised r) :
    isDecodeReason r = true := by
  obtain ⟨-, h⟩ | ⟨op, -, -, h⟩ | ⟨op, v, -, -, h⟩ := decodePacket_cases maxCode b <;> rw [h] at hr
  · cases hr; rfl
  · cases hr; rfl
  · exact decVariant_raised hr

theorem decoderOf_ne_outOfBounds {i : Instr} {d : Bytes → Decoded} (h : decoderOf i = some d) (b : Bytes) :
    d b ≠ .outOfBounds := by
  cases i <;> simp only [decoderOf, Option.some.injEq, reduceCtorEq] at h <;> subst h <;>
    first | exact decodePacket_ne_outOfBounds _ _ | exact decVariant_ne_outOfBounds _ _ _

theorem decoderOf_raised {i : Instr} {d : Bytes → Decoded} (h : decoderOf i = some d) {b : Bytes} {r : Reason}
    (hr : d b = .raised r) : isDecodeReason r = true := by
  cases i <;> simp only [decoderOf, Option.some.injEq, reduceCtorEq] at h <;> subst h <;>
    first | exact decodePacket_raised hr | exact decVariant_raised hr

/-- The packet an ENC command encodes, where its operand registers hold values (R121 to R125). -/
def encPacket (i : Instr) (s : State) : Option Packet :=
  match i with
  | .encRrq => s.pv.fname.bind fun f => s.pv.mode.map fun m => .rrq f m
  | .encWrq => s.pv.fname.bind fun f => s.pv.mode.map fun m => .wrq f m
  | .encData => s.pv.block.bind fun b => s.pv.payload.map fun p => .data b p
  | .encAck => s.pv.block.map fun b => .ack b
  | .encError => s.pv.ecode.bind fun c => s.pv.msg.map fun g => .error c g
  | .dec => none
  | .maperr => none
  | .wireRrq => none
  | .wireWrq => none
  | .wireData => none
  | .wireAck => none
  | .wireError => none

/-- The state an ENC command leaves when it encodes `p`: the range check of ENC.ERROR, then `ENC_FINISH`. -/
def encOutcome (p : Packet) (s : State) : State :=
  match p with
  | .rrq f m => encFinish (packetBytes (.rrq f m)) s
  | .wrq f m => encFinish (packetBytes (.wrq f m)) s
  | .data b q => encFinish (packetBytes (.data b q)) s
  | .ack b => encFinish (packetBytes (.ack b)) s
  | .error c g => if Config.errEncodeMax < c.toNat then raiseEnc .encEcodeRange s else encFinish (packetBytes (.error c g)) s

/-- An ENC command in full: it records a fault where an operand register holds NONE, and otherwise encodes its packet. -/
theorem exec_enc {i : Instr} (h : isEnc i = true) (s : State) :
    exec i s =
      match encPacket i s with
      | some p => .next (encOutcome p s)
      | none => .next (recordUnsetOperand s) := by
  cases i <;> simp only [isEnc, Bool.false_eq_true] at h
  · simp only [exec, execEncRrq, encPacket]
    cases s.pv.fname <;> cases s.pv.mode <;> rfl
  · simp only [exec, execEncWrq, encPacket]
    cases s.pv.fname <;> cases s.pv.mode <;> rfl
  · simp only [exec, execEncData, encPacket]
    cases s.pv.block <;> cases s.pv.payload <;> rfl
  · simp only [exec, execEncAck, encPacket]
    cases s.pv.block <;> rfl
  · simp only [exec, execEncError, encPacket]
    cases s.pv.ecode <;> cases s.pv.msg <;> simp only [Option.bind_some, Option.bind_none, Option.map_some, Option.map_none, encOutcome]
    split <;> rfl

/-- What an ENC command can leave: the encoded packet and no error, or no packet and a short write, or, for ENC.ERROR, the
range error (R29, R201). -/
theorem encOutcome_cases (p : Packet) (s : State) :
    ((packetBytes p).length ≤ Config.bufMax ∧
      encOutcome p s = { s with out := some (packetBytes p), ev := .none, status := 0x01 }) ∨
    ((∀ n, p ≠ .ack n) ∧ Config.bufMax < (packetBytes p).length ∧ encOutcome p s = raiseEnc .encShortWrite s) ∨
    (∃ c g, p = .error c g ∧ 8 ≤ c.toNat ∧ encOutcome p s = raiseEnc .encEcodeRange s) := by
  by_cases hl : (packetBytes p).length ≤ Config.bufMax
  · cases p with
    | error c g =>
      by_cases hc : Config.errEncodeMax < c.toNat
      · exact .inr (.inr ⟨c, g, rfl, hc, by simp [encOutcome, hc]⟩)
      · exact .inl ⟨hl, by rw [encOutcome, if_neg hc, encFinish_of_le hl]⟩
    | _ => exact .inl ⟨hl, encFinish_of_le hl⟩
  · have hl' : Config.bufMax < (packetBytes p).length := by omega
    cases p with
    | error c g =>
      by_cases hc : Config.errEncodeMax < c.toNat
      · exact .inr (.inr ⟨c, g, rfl, hc, by simp [encOutcome, hc]⟩)
      · exact .inr (.inl ⟨by simp, hl', by rw [encOutcome, if_neg hc, encFinish_of_lt hl']⟩)
    | ack n =>
      have := bufMax_ge
      simp [packetBytes, be16] at hl'
      omega
    | _ => exact .inr (.inl ⟨by simp, hl', encFinish_of_lt hl'⟩)

/-- What an ENC command writes is a function of the packet alone (R127). -/
theorem encOutcome_writes (p : Packet) :
    ∃ o e st, ∀ s, encOutcome p s = { s with out := o, ev := e, status := st } := by
  have fin : ∀ out, ∃ o e st, ∀ s, encFinish out s = { s with out := o, ev := e, status := st } := by
    intro out
    by_cases h : out.length ≤ Config.bufMax
    · exact ⟨_, _, _, fun s => encFinish_of_le h⟩
    · exact ⟨_, _, _, fun s => (encFinish_of_lt (by omega)).trans rfl⟩
  cases p with
  | error c g =>
    by_cases hc : Config.errEncodeMax < c.toNat
    · exact ⟨_, _, _, fun s => (if_pos hc : encOutcome (.error c g) s = _).trans rfl⟩
    · obtain ⟨o, e, st, h⟩ := fin (packetBytes (.error c g))
      exact ⟨o, e, st, fun s => (if_neg hc : encOutcome (.error c g) s = _).trans (h s)⟩
  | _ => exact fin _

/-- An ENC command has a packet to encode exactly where its operand registers hold values (R82). -/
theorem encPacket_eq_none_iff {i : Instr} (h : isEnc i = true) (s : State) :
    encPacket i s = none ↔ operandsReady i s = false := by
  cases i <;> simp only [isEnc, Bool.false_eq_true] at h
  · cases hf : s.pv.fname <;> cases hm : s.pv.mode <;> simp [encPacket, operandsReady, operands, holds, readReg, hf, hm]
  · cases hf : s.pv.fname <;> cases hm : s.pv.mode <;> simp [encPacket, operandsReady, operands, holds, readReg, hf, hm]
  · cases hf : s.pv.block <;> cases hm : s.pv.payload <;> simp [encPacket, operandsReady, operands, holds, readReg, hf, hm]
  · cases hf : s.pv.block <;> simp [encPacket, operandsReady, operands, holds, readReg, hf]
  · cases hf : s.pv.ecode <;> cases hm : s.pv.msg <;> simp [encPacket, operandsReady, operands, holds, readReg, hf, hm]

theorem operandsReady_of_decoder {i : Instr} {d : Bytes → Decoded} (h : decoderOf i = some d) (s : State) :
    operandsReady i s = s.inBuf.isSome := by
  cases i <;> simp only [decoderOf, reduceCtorEq] at h <;>
    simp [operandsReady, operands, holds, readReg]

/-- Every operand register holds a value (R82, 70_reset_and_hazards.md R232). -/
theorem operandsReady_iff (i : Instr) (s : State) : operandsReady i s = true ↔ ∀ r ∈ operands i, readReg r s ≠ none := by
  simp [operandsReady, holds, List.all_eq_true, Option.isSome_iff_ne_none]

theorem operandsReady_eq_false_iff (i : Instr) (s : State) :
    operandsReady i s = false ↔ ∃ r ∈ operands i, readReg r s = none := by
  simp [operandsReady, holds]

/-- An instruction whose operands do not all hold values records the fault and does nothing else (60_exceptions.md R210). -/
theorem exec_of_not_ready {i : Instr} {s : State} (h : operandsReady i s = false) :
    exec i s = .next (recordUnsetOperand s) := by
  by_cases he : isEnc i = true
  · rw [exec_enc he, (encPacket_eq_none_iff he s).mpr h]
  cases hd : decoderOf i with
  | some d =>
    rw [operandsReady_of_decoder hd, Option.isSome_eq_false_iff, Option.isNone_iff_eq_none] at h
    rw [exec_of_decoder hd, runDecoder_of_none h]
  | none =>
    have : i = .maperr := by cases i <;> simp_all [isEnc, decoderOf]
    subst this
    simp only [exec, execMaperr]
    split
    · next c x hc hx => simp [operandsReady, operands, holds, readReg, hc, hx] at h
    · rfl

/-- What an instruction whose operands hold values does: encode, decode or raise, or map. -/
theorem exec_ready_cases {i : Instr} {s : State} (h : operandsReady i s = true) :
    (∃ p, isEnc i = true ∧ encPacket i s = some p ∧ exec i s = .next (encOutcome p s)) ∨
    (∃ d b p, decoderOf i = some d ∧ s.inBuf = some b ∧ d b = .packet p ∧ exec i s = .next (decFinish p s)) ∨
    (∃ d b r, decoderOf i = some d ∧ s.inBuf = some b ∧ d b = .raised r ∧ isDecodeReason r = true ∧
      exec i s = .next (raiseDec r s)) ∨
    (∃ c x, i = .maperr ∧ s.ev.cls = some c ∧ s.ev.ctx = some x ∧
      exec i s = .next (finish (writePacket (.error (c.setWidth 16) (message c x)) s))) := by
  by_cases he : isEnc i = true
  · cases hp : encPacket i s with
    | some p => exact .inl ⟨p, he, rfl, by rw [exec_enc he, hp]⟩
    | none => rw [(encPacket_eq_none_iff he s).mp hp] at h; cases h
  cases hd : decoderOf i with
  | some d =>
    rw [operandsReady_of_decoder hd, Option.isSome_iff_exists] at h
    obtain ⟨b, hb⟩ := h
    rw [exec_of_decoder hd, runDecoder_of_some hb]
    cases hr : d b with
    | packet p => exact .inr (.inl ⟨d, b, p, rfl, hb, hr, rfl⟩)
    | raised r => exact .inr (.inr (.inl ⟨d, b, r, rfl, hb, hr, decoderOf_raised hd hr, rfl⟩))
    | outOfBounds => exact absurd hr (decoderOf_ne_outOfBounds hd b)
  | none =>
    have : i = .maperr := by cases i <;> simp_all [isEnc, decoderOf]
    subst this
    cases hc : s.ev.cls <;> cases hx : s.ev.ctx <;> simp [operandsReady, operands, holds, readReg, hc, hx] at h
    exact .inr (.inr (.inr ⟨_, _, rfl, rfl, rfl, by simp only [exec, execMaperr, hc, hx]⟩))

/-- What an instruction can do when it answers a next state: record the fault of an unset operand, or, its operands holding
values, encode, decode or raise, or map. -/
theorem exec_next_cases {i : Instr} {s t : State} (h : exec i s = .next t) :
    (operandsReady i s = false ∧ t = recordUnsetOperand s) ∨
    (∃ p, isEnc i = true ∧ encPacket i s = some p ∧ t = encOutcome p s) ∨
    (∃ d b p, decoderOf i = some d ∧ s.inBuf = some b ∧ d b = .packet p ∧ t = decFinish p s) ∨
    (∃ d b r, decoderOf i = some d ∧ s.inBuf = some b ∧ d b = .raised r ∧ isDecodeReason r = true ∧ t = raiseDec r s) ∨
    (∃ c x, i = .maperr ∧ s.ev.cls = some c ∧ s.ev.ctx = some x ∧
      t = finish (writePacket (.error (c.setWidth 16) (message c x)) s)) := by
  cases ho : operandsReady i s with
  | false => rw [exec_of_not_ready ho] at h; cases h; exact .inl ⟨rfl, rfl⟩
  | true =>
    obtain ⟨p, hp, hq, e⟩ | ⟨d, b, p, hd, hb, hr, e⟩ | ⟨d, b, r, hd, hb, hr, hk, e⟩ | ⟨c, x, hi, hc, hx, e⟩ := exec_ready_cases ho <;>
      rw [e] at h <;> cases h
    · exact .inr (.inl ⟨p, hp, hq, rfl⟩)
    · exact .inr (.inr (.inl ⟨d, b, p, hd, hb, hr, rfl⟩))
    · exact .inr (.inr (.inr (.inl ⟨d, b, r, hd, hb, hr, hk, rfl⟩)))
    · exact .inr (.inr (.inr (.inr ⟨c, x, hi, hc, hx, rfl⟩)))

/-- Every instruction completes (70_reset_and_hazards.md R237). -/
theorem exec_completes (i : Instr) (s : State) : ∃ t, exec i s = .next t := by
  cases ho : operandsReady i s with
  | false => exact ⟨_, exec_of_not_ready ho⟩
  | true =>
    obtain ⟨p, -, -, e⟩ | ⟨d, b, p, -, -, -, e⟩ | ⟨d, b, r, -, -, -, -, e⟩ | ⟨c, x, -, -, -, e⟩ := exec_ready_cases ho <;>
      exact ⟨_, e⟩

end Sys2Proof.Machine
end

