-- ==== Sys2Proof/Laws/Port.lean ====
section
/-! SUPPORT. What an action from outside can do (10_state.md R22, R23; 20_memory.md R57): the inversion lemmas of the port,
of a step, and of a step of one instance among several. -/

namespace Sys2Proof.Machine

/-- A host write of a byte sequence stores it if it fits, and has no step otherwise (R23). -/
theorem storeBytes_eq_next_iff {b : Bytes} {stored t : State} :
    storeBytes b stored = .next t ↔ b.length ≤ Config.bufMax ∧ t = stored := by
  simp only [storeBytes, fitsBuffer, decide_eq_true_eq]
  split <;> simp_all [eq_comm]

/-- A command write runs the command its code names, or has the illegal-command outcome (R80, R83). -/
theorem startCommand_of_some {c : Byte} {i : Instr} (h : decodeCommand c = some i) (s : State) :
    startCommand c s = exec i { s with cmd := some c } := by
  simp [startCommand, h]

theorem startCommand_of_none {c : Byte} (h : decodeCommand c = none) (s : State) :
    startCommand c s = .next { s with cmd := some c, status := 0x05 } := by
  simp only [startCommand, h]
  rfl

/-- A host read leaves every register as it was (R57). -/
theorem readReg_observe (q r : Reg) (s : State) : readReg q (observe r s) = readReg q s := by
  unfold observe
  split <;> cases q <;> rfl

/-- A step with no action waiting (DESIGN CHOICE, log 5). -/
theorem step_of_nil {s : State} (h : s.pending = []) : step s = .next s := by
  simp [step, takeAction, h]

/-- A step applies the next action. -/
theorem step_of_cons {s : State} {a : Action} {rest : List Action} (h : s.pending = a :: rest) :
    step s = perform a { s with pending := rest } := by
  simp [step, takeAction, h]

/-- A step of instance `k` is a step of its state, put back in its place. -/
theorem systemStep_eq_next_iff {k : Nat} {y z : System} :
    systemStep k y = .next z ↔ ∃ s t, y.instances[k]? = some s ∧ step s = .next t ∧ z = ⟨y.instances.set k t⟩ := by
  unfold systemStep
  cases h : y.instances[k]? with
  | none => simp
  | some s => cases h2 : step s <;> simp [h2, eq_comm]

end Sys2Proof.Machine
end

