-- ==== Sys2Proof/Laws/Memory.lean ====
section
/-! SUPPORT. Every operation on the byte-sequence registers keeps their canonical form, `Memory.wf` (10_state.md R23), and
the reset state has it. -/

namespace Sys2Proof.Machine

@[simp] theorem memory_wf_none : Memory.wf none = true := rfl

@[simp] theorem memory_wf_some (b : Bytes) : Memory.wf (some b) = true ↔ b.length ≤ Config.bufMax := by
  simp [Memory.wf]

/-- The byte sequences among the PV registers are within capacity. -/
def PvFits (v : PacketValue) : Prop :=
  Memory.wf v.fname = true ∧ Memory.wf v.mode = true ∧ Memory.wf v.payload = true ∧ Memory.wf v.msg = true

theorem capacityInv_iff (s : State) :
    CapacityInv s ↔ Memory.wf s.inBuf = true ∧ Memory.wf s.out = true ∧ PvFits s.pv ∧ Memory.wf s.ev.ctx = true := by
  simp only [CapacityInv, PvFits, and_assoc]

theorem capacityInv_reset : CapacityInv State.reset := by
  simp [CapacityInv, State.reset, PacketValue.none, ErrorValue.none]

theorem pvFits_none : PvFits .none := ⟨rfl, rfl, rfl, rfl⟩

/-- A packet value decoded from bytes that fit, fits (R149, R23). -/
theorem pvFits_of_decVariant {maxCode : Nat} {v : Variant} {b : Bytes} {p : Packet} (hb : b.length ≤ Config.bufMax)
    (h : decVariant maxCode v b = .packet p) : PvFits (packetRegs p) := by
  cases v with
  | rrq =>
    obtain ⟨f, m, tail, rfl, -, -, -, -, -, he⟩ := decReq_eq_packet_iff.mp h
    have := congrArg List.length he
    simp [putstr] at this
    simp [PvFits, packetRegs, PacketValue.none]; omega
  | wrq =>
    obtain ⟨f, m, tail, rfl, -, -, -, -, -, he⟩ := decReq_eq_packet_iff.mp h
    have := congrArg List.length he
    simp [putstr] at this
    simp [PvFits, packetRegs, PacketValue.none]; omega
  | data =>
    obtain ⟨n, pay, rfl, -, he⟩ := decData_eq_packet_iff.mp h
    have := congrArg List.length he
    simp at this
    simp [PvFits, packetRegs, PacketValue.none]; omega
  | ack =>
    obtain ⟨n, rfl, -, -⟩ := decAck_eq_packet_iff.mp h
    simp [PvFits, packetRegs, PacketValue.none]
  | error =>
    obtain ⟨c, g, tail, rfl, -, -, -, he⟩ := decError_eq_packet_iff.mp h
    have := congrArg List.length he
    simp [putstr] at this
    simp [PvFits, packetRegs, PacketValue.none]; omega

theorem pvFits_of_decoder {i : Instr} {d : Bytes → Decoded} (hd : decoderOf i = some d) {b : Bytes} {p : Packet}
    (hb : b.length ≤ Config.bufMax) (h : d b = .packet p) : PvFits (packetRegs p) := by
  cases i <;> simp only [decoderOf, Option.some.injEq, reduceCtorEq] at hd <;> subst hd
  · obtain ⟨-, h2⟩ | ⟨op, -, -, h2⟩ | ⟨op, v, -, -, h2⟩ := decodePacket_cases Config.errDecodeMax b <;> rw [h2] at h
    · cases h
    · cases h
    · exact pvFits_of_decVariant hb h
  all_goals exact pvFits_of_decVariant hb h

/-- A recorded fault keeps the capacity. -/
theorem capacityInv_recordUnsetOperand {s : State} (h : CapacityInv s) : CapacityInv (recordUnsetOperand s) := h

/-- A raise keeps the capacity: the context text fits (R204). -/
theorem capacityInv_raise {s : State} (h : CapacityInv s) (r : Reason) : CapacityInv (raise r s) := by
  rw [capacityInv_iff] at h ⊢
  exact ⟨h.1, h.2.1, h.2.2.1, by simpa using reasonText_fits r⟩

theorem capacityInv_raiseEnc {s : State} (h : CapacityInv s) (r : Reason) : CapacityInv (raiseEnc r s) := by
  have := (capacityInv_iff _).mp (capacityInv_raise h r)
  exact (capacityInv_iff _).mpr ⟨this.1, rfl, this.2.2⟩

theorem capacityInv_raiseDec {s : State} (h : CapacityInv s) (r : Reason) : CapacityInv (raiseDec r s) := by
  have := (capacityInv_iff _).mp (capacityInv_raise h r)
  exact (capacityInv_iff _).mpr ⟨this.1, this.2.1, pvFits_none, this.2.2.2⟩

/-- An ENC command keeps the capacity (R126). -/
theorem capacityInv_encOutcome {s : State} (h : CapacityInv s) (p : Packet) : CapacityInv (encOutcome p s) := by
  obtain ⟨hl, e⟩ | ⟨-, -, e⟩ | ⟨c, g, -, -, e⟩ := encOutcome_cases p s <;> rw [e]
  · rw [capacityInv_iff] at h ⊢
    exact ⟨h.1, by simpa using hl, h.2.2.1, rfl⟩
  · exact capacityInv_raiseEnc h _
  · exact capacityInv_raiseEnc h _

/-- DEC's finish keeps the capacity when the packet value fits. -/
theorem capacityInv_decFinish {s : State} (h : CapacityInv s) {p : Packet} (hp : PvFits (packetRegs p)) :
    CapacityInv (decFinish p s) := by
  rw [capacityInv_iff] at h ⊢
  exact ⟨h.1, h.2.1, hp, rfl⟩

/-- Every message fits where its context does (R173). -/
theorem message_fits (c : BitVec 3) {x : Bytes} (hx : x.length ≤ Config.bufMax) :
    (message c x).length ≤ Config.bufMax := by
  unfold message
  split
  · exact hx
  · exact kindText_fits c x

/-- MAPERR keeps the capacity. -/
theorem capacityInv_maperr {s : State} (h : CapacityInv s) {c : BitVec 3} {x : Bytes} (hx : s.ev.ctx = some x) :
    CapacityInv (finish (writePacket (.error (c.setWidth 16) (message c x)) s)) := by
  rw [capacityInv_iff] at h ⊢
  have hl : x.length ≤ Config.bufMax := by simpa [hx] using h.2.2.2
  refine ⟨h.1, h.2.1, ?_, h.2.2.2⟩
  simpa [PvFits, packetRegs, PacketValue.none] using message_fits c hl

end Sys2Proof.Machine
end

