-- ==== Sys2Proof/Laws/PerInstr.lean ====
section
/-! SUPPORT. The per-instruction family `EncodeDecode`: an instruction's word decodes to the instruction. -/

namespace Sys2Proof.Laws.EncodeDecode

/-- The word the encoder writes is read back, and what follows it is left for what follows. -/
def Statement (i : Instr) : Prop := ∀ rest : Bytes, decode i.space (encode i ++ rest) = .ok (i, rest)

theorem encRrq : Statement .encRrq := fun _ => rfl
theorem encWrq : Statement .encWrq := fun _ => rfl
theorem encData : Statement .encData := fun _ => rfl
theorem encAck : Statement .encAck := fun _ => rfl
theorem encError : Statement .encError := fun _ => rfl
theorem dec : Statement .dec := fun _ => rfl
theorem maperr : Statement .maperr := fun _ => rfl
theorem wireRrq : Statement .wireRrq := fun rest => decode_wire_be16 1 rest
theorem wireWrq : Statement .wireWrq := fun rest => decode_wire_be16 2 rest
theorem wireData : Statement .wireData := fun rest => decode_wire_be16 3 rest
theorem wireAck : Statement .wireAck := fun rest => decode_wire_be16 4 rest
theorem wireError : Statement .wireError := fun rest => decode_wire_be16 5 rest

end Sys2Proof.Laws.EncodeDecode
end

