-- ==== Sys2Proof/Tests/Slice0.lean ====
section
/-! SUPPORT. The model's own tests. Expected values come from the spec: 95_test_vectors.md (its row named in each comment),
the examples of the rules, or the encodings of 30_encoding.md. The witnesses at the end show, for each statement with
hypotheses, a concrete state that meets them. -/

namespace Sys2Proof.Tests

open Sys2Proof Sys2Proof.Machine

/-! ### Helpers -/

def nextOf : Result → Option State
  | .next s => some s
  | .fault _ => none
  | .refused _ => none

/-- The model fault that a result has recorded. -/
def faultOf (r : Result) : Option ModelFault := (nextOf r).bind (·.fault)

def refusalOf : Result → Option Refusal
  | .next _ => none
  | .fault _ => none
  | .refused r => some r

def withIn (b : Bytes) : State := { State.reset with inBuf := some b }

def withPv (v : PacketValue) : State := { State.reset with pv := v }

def withEv (c : BitVec 3) (x : Bytes) : State := { State.reset with ev := ⟨some c, none, some x⟩ }

def pending (a : Action) : State := { State.reset with pending := [a] }

/-- What `OUT` holds after an instruction. -/
def outOf (i : Instr) (s : State) : Option (Option Bytes) := (nextOf (exec i s)).map (·.out)

/-- What PV holds after an instruction. -/
def pvAfter (i : Instr) (s : State) : Option PacketValue := (nextOf (exec i s)).map (·.pv)

/-- What EV holds after an instruction. -/
def evAfter (i : Instr) (s : State) : Option ErrorValue := (nextOf (exec i s)).map (·.ev)

/-- `STATUS` after an instruction. -/
def statusAfter (i : Instr) (s : State) : Option (BitVec 8) := (nextOf (exec i s)).map (·.status)

/-- `"./testfile"` and `"octet"` in ASCII. -/
def fnameS1 : Bytes := [0x2E, 0x2F, 0x74, 0x65, 0x73, 0x74, 0x66, 0x69, 0x6C, 0x65]
def modeS1 : Bytes := [0x6F, 0x63, 0x74, 0x65, 0x74]
/-- `"Test"` in ASCII. -/
def testText : Bytes := [0x54, 0x65, 0x73, 0x74]

/-! ### Well-formedness: an ill-formed term for each check -/

-- R25: a blank filename, a blank mode, a terminator inside either
theorem test_refuses_blank_fname : (Packet.rrq [] modeS1).fieldsOk = false := by decide
theorem test_refuses_blank_mode : (Packet.wrq fnameS1 []).fieldsOk = false := by decide
theorem test_refuses_nul_in_fname : (Packet.rrq [0x61, 0x00, 0x62] modeS1).fieldsOk = false := by decide
theorem test_refuses_nul_in_mode : (Packet.wrq fnameS1 [0x00]).fieldsOk = false := by decide
-- R25: an Error code above 7, a terminator inside the message
theorem test_refuses_code_eight : (Packet.error 8 []).fieldsOk = false := by decide
theorem test_refuses_nul_in_msg : (Packet.error 7 [0x61, 0x00]).fieldsOk = false := by decide
theorem test_accepts_code_seven : (Packet.error 7 testText).fieldsOk = true := by decide
-- R25: an encoding longer than BUF_MAX
theorem test_refuses_long_packet : (Packet.data 1 (List.replicate (Config.bufMax - 3) 0x00)).valid = false := by
  have := bufMax_ge
  simp [Packet.valid, Packet.fieldsOk, Packet.encodedLength]; omega
-- R23: a host write longer than BUF_MAX is no action, one of exactly BUF_MAX bytes is
theorem test_refuses_long_write : (Action.writeIn (List.replicate (Config.bufMax + 1) 0x00)).fits = false := by
  simp [Action.fits, fitsBuffer]
theorem test_accepts_full_write : (Action.writeIn (List.replicate Config.bufMax 0x00)).fits = true := by
  simp [Action.fits, fitsBuffer]

/-! ### Decoding: words written out from 30_encoding.md R80 and R75 -/

theorem test_decode_enc_words :
    decode .command [0b00000001] = .ok (.encRrq, []) ∧ decode .command [0b00000010] = .ok (.encWrq, []) ∧
    decode .command [0b00000011] = .ok (.encData, []) ∧ decode .command [0b00000100] = .ok (.encAck, []) ∧
    decode .command [0b00000101] = .ok (.encError, []) := ⟨rfl, rfl, rfl, rfl, rfl⟩
theorem test_decode_group_one_words :
    decode .command [0b00001000] = .ok (.dec, []) ∧ decode .command [0b00001001] = .ok (.maperr, []) := ⟨rfl, rfl⟩
-- the bytes of S1, D-W1, S2, S3, S4
theorem test_decode_wire_words :
    decode .wire ([0x00, 0x01] ++ fnameS1) = .ok (.wireRrq, fnameS1) ∧
    decode .wire [0x00, 0x02, 0x66, 0x00] = .ok (.wireWrq, [0x66, 0x00]) ∧
    decode .wire [0x00, 0x03, 0x00, 0x32] = .ok (.wireData, [0x00, 0x32]) ∧
    decode .wire [0x00, 0x04, 0x00, 0x32] = .ok (.wireAck, [0x00, 0x32]) ∧
    decode .wire [0x00, 0x05, 0x00, 0x01] = .ok (.wireError, [0x00, 0x01]) := ⟨rfl, rfl, rfl, rfl, rfl⟩
-- R83 and D-O1, D-O3: illegal words are refused by name; `01 00` is opcode 256
theorem test_decode_illegal_words :
    decode .command [0x06] = .error (.illegalCommand 0x06) ∧ decode .command [0x0A] = .error (.illegalCommand 0x0A) ∧
    decode .command [0x11] = .error (.illegalCommand 0x11) ∧ decode .command [] = .error .noBytes ∧
    decode .wire [0x00, 0x00] = .error (.unknownOpcode 0) ∧ decode .wire [0x01, 0x00] = .error (.unknownOpcode 256) ∧
    decode .wire [0x00] = .error .noBytes := ⟨rfl, rfl, rfl, rfl, rfl, rfl, rfl⟩
-- the table's numbering of the rows
theorem test_table_words :
    [decodeTableWord 8 1, decodeTableWord 8 9, decodeTableWord 16 1, decodeTableWord 16 5, decodeTableWord 8 6] =
      [some .encRrq, some .maperr, some .wireRrq, some .wireError, none] := by decide

/-! ### Field primitives: vectors F1 to F4 -/

theorem test_be16 : [be16 0, be16 50, be16 256, be16 65535] = [[0, 0], [0, 0x32], [1, 0], [0xFF, 0xFF]] := by decide
theorem test_rd16 :
    [rd16 [0x00, 0x04, 0x00, 0x32] 2, rd16 [0x01, 0x00] 0, rd16 [0xFF, 0xFF] 0, rd16 [0x00] 0] =
      [some 50, some 256, some 65535, none] := by decide
theorem test_getstr :
    [getstr [0x61, 0x00, 0x62, 0x00] 0, getstr [0x00, 0x62] 0, getstr [0x61, 0x62] 0, getstr [0x61] 1] =
      [some ([0x61], 2), some ([], 1), none, none] := by decide
theorem test_decimal : decimal 256 = [0x32, 0x35, 0x36] ∧ decimal 0 = [0x30] := by decide

/-! ### Encode: vectors E-* -/

-- S1
theorem test_encRrq : outOf .encRrq (withPv ⟨none, some fnameS1, some modeS1, none, none, none, none⟩) =
    some (some [0x00, 0x01, 0x2E, 0x2F, 0x74, 0x65, 0x73, 0x74, 0x66, 0x69, 0x6C, 0x65, 0x00,
      0x6F, 0x63, 0x74, 0x65, 0x74, 0x00]) := by decide +kernel
-- E-R2: a blank filename is encoded as it stands
theorem test_encRrq_blank : outOf .encRrq (withPv ⟨none, some [], some modeS1, none, none, none, none⟩) =
    some (some [0x00, 0x01, 0x00, 0x6F, 0x63, 0x74, 0x65, 0x74, 0x00]) := by decide +kernel
-- E-W1
theorem test_encWrq :
    outOf .encWrq (withPv ⟨none, some [0x66], some [0x6E, 0x65, 0x74, 0x61, 0x73, 0x63, 0x69, 0x69], none, none, none, none⟩) =
      some (some [0x00, 0x02, 0x66, 0x00, 0x6E, 0x65, 0x74, 0x61, 0x73, 0x63, 0x69, 0x69, 0x00]) := by decide +kernel
-- E-R6
theorem test_encWrq_unset : faultOf (exec .encWrq (withPv ⟨none, none, some modeS1, none, none, none, none⟩)) =
    some .unsetOperand := by decide
-- S2
theorem test_encData : outOf .encData (withPv ⟨none, none, none, some 50, some testText, none, none⟩) =
    some (some [0x00, 0x03, 0x00, 0x32, 0x54, 0x65, 0x73, 0x74]) := by decide +kernel
-- E-D4 and E-D5 for any BUF_MAX: a payload of BUF_MAX - 4 bytes fits, one byte more does not
theorem test_encData_capacity :
    statusAfter .encData (withPv ⟨none, none, none, some 1, some (List.replicate (Config.bufMax - 4) 0x00), none, none⟩) = some 0x01 ∧
    statusAfter .encData (withPv ⟨none, none, none, some 1, some (List.replicate (Config.bufMax - 3) 0x00), none, none⟩) = some 0x03 := by
  have h := bufMax_ge
  constructor
  · have hl : (packetBytes (.data 1 (List.replicate (Config.bufMax - 4) 0x00))).length ≤ Config.bufMax := by
      rw [packetBytes_length]; simp [Packet.encodedLength]; omega
    exact congrArg some (congrArg State.status (encFinish_of_le hl))
  · have hl : Config.bufMax < (packetBytes (.data 1 (List.replicate (Config.bufMax - 3) 0x00))).length := by
      rw [packetBytes_length]; simp [Packet.encodedLength]; omega
    exact congrArg some (congrArg State.status (encFinish_of_lt hl))
-- E-A1
theorem test_encAck : outOf .encAck (withPv ⟨none, none, none, some 256, none, none, none⟩) =
    some (some [0x00, 0x04, 0x01, 0x00]) := by decide +kernel
-- E-E1
theorem test_encError : outOf .encError (withPv ⟨none, none, none, none, none, some 1, some testText⟩) =
    some (some [0x00, 0x05, 0x00, 0x01, 0x54, 0x65, 0x73, 0x74, 0x00]) := by decide +kernel
-- E-E3: (0, 13) with the text of reason 13
theorem test_encError_range : evAfter .encError (withPv ⟨none, none, none, none, none, some 8, some [0x78]⟩) =
    some ⟨some 0, some 13, some (reasonText .encEcodeRange)⟩ := rfl
-- R204's default for reason 13: "error code out of range"
theorem test_default_text_13 : defaultReasonText .encEcodeRange =
    [0x65, 0x72, 0x72, 0x6F, 0x72, 0x20, 0x63, 0x6F, 0x64, 0x65, 0x20, 0x6F, 0x75, 0x74,
      0x20, 0x6F, 0x66, 0x20, 0x72, 0x61, 0x6E, 0x67, 0x65] := by decide

/-! ### Decode: vectors D-* -/

-- S3
theorem test_dec_ack : pvAfter .dec (withIn [0x00, 0x04, 0x00, 0x32]) =
    some ⟨some 4, none, none, some 50, none, none, none⟩ := by decide
-- D-O3: (4, 2) with the text that names 256
theorem test_dec_unknown : evAfter .dec (withIn [0x01, 0x00, 0x61, 0x00, 0x62, 0x00]) =
    some ⟨some 4, some 2, some (reasonText (.unknownOpcode 256))⟩ := rfl
-- D-O3 with R204's default: "unknown opcode: 256"
theorem test_default_text_2 : defaultReasonText (.unknownOpcode 256) =
    [0x75, 0x6E, 0x6B, 0x6E, 0x6F, 0x77, 0x6E, 0x20, 0x6F, 0x70, 0x63, 0x6F, 0x64, 0x65, 0x3A, 0x20, 0x32, 0x35, 0x36] := by
  decide +kernel
-- D-Q9
theorem test_wireRrq : pvAfter .wireRrq (withIn [0x00, 0x01, 0x61, 0x00, 0x62, 0x00, 0x78, 0x79]) =
    some ⟨some 1, some [0x61], some [0x62], none, none, none, none⟩ := by decide
-- D-Q2, D-Q4, D-Q6, D-Q7, D-Q8: the reasons 3, 4, 5, 6, 7
theorem test_wireRrq_reasons :
    ([[0x00, 0x01, 0x61, 0x00, 0x62], [0x00, 0x01, 0x61, 0x62, 0x63, 0x64], [0x00, 0x01, 0x00, 0x61, 0x62, 0x63],
      [0x00, 0x01, 0x61, 0x00, 0x62, 0x63], [0x00, 0x01, 0x61, 0x00, 0x00, 0x63]] : List Bytes).map
        (fun b => (evAfter .wireRrq (withIn b)).map (·.reason)) =
      [some (some 3), some (some 4), some (some 5), some (some 6), some (some 7)] := by decide
-- D-W1
theorem test_wireWrq : pvAfter .wireWrq (withIn [0x00, 0x02, 0x66, 0x00, 0x6E, 0x00]) =
    some ⟨some 2, some [0x66], some [0x6E], none, none, none, none⟩ := by decide
-- D-D6 and D-D2
theorem test_wireData : pvAfter .wireData (withIn [0x00, 0x03, 0x00, 0x01, 0x00, 0x00]) =
    some ⟨some 3, none, none, some 1, some [0x00, 0x00], none, none⟩ := by decide
theorem test_wireData_short : (evAfter .wireData (withIn [0x00, 0x03, 0x00])).map (·.reason) = some (some 8) := by decide
-- D-A5 and D-A4
theorem test_wireAck : pvAfter .wireAck (withIn [0x00, 0x04, 0xFF, 0xFF]) =
    some ⟨some 4, none, none, some 65535, none, none, none⟩ := by decide
theorem test_wireAck_strict : (evAfter .wireAck (withIn [0x00, 0x04, 0x00, 0x32, 0x00])).map (·.reason) = some (some 9) := by
  decide
-- D-E9; D-E1, D-E5, D-E7: the reasons 10, 11, 12
theorem test_wireError : pvAfter .wireError (withIn [0x00, 0x05, 0x00, 0x01, 0x41, 0x00, 0x42]) =
    some ⟨some 5, none, none, none, none, some 1, some [0x41]⟩ := by decide
theorem test_wireError_reasons :
    ([[0x00, 0x05, 0x00, 0x01], [0x00, 0x05, 0x00, 0x09, 0x78], [0x00, 0x05, 0x00, 0x01, 0x54, 0x65, 0x73, 0x74]] : List Bytes).map
        (fun b => (evAfter .wireError (withIn b)).map (·.reason)) =
      [some (some 10), some (some 11), some (some 12)] := by decide
-- D-E4 with `ERR_DECODE_MAX` 7 and 8
theorem test_error_code_eight :
    decError 7 [0x00, 0x05, 0x00, 0x08, 0x00] = .raised (.errCodeRange 8) ∧
    decError 8 [0x00, 0x05, 0x00, 0x08, 0x00] = .packet (.error 8 []) := by decide

/-! ### Mapping: vectors M0 and M4 -/

-- "boom" is copied; EV keeps its value
theorem test_maperr_unclassified : pvAfter .maperr (withEv 0 [0x62, 0x6F, 0x6F, 0x6D]) =
    some ⟨some 5, none, none, none, none, some 0, some [0x62, 0x6F, 0x6F, 0x6D]⟩ := by decide
theorem test_maperr_named (x : Bytes) : (pvAfter .maperr (withEv 4 x)).map (fun v => (v.ecode, v.msg)) =
    some (some 4, some (kindText 4 x)) := by
  simp [pvAfter, withEv, exec, execMaperr, nextOf, packetRegs, message]

/-! ### The port: vectors C1, C3, Program 5 and R57 -/

theorem test_illegal_command : (nextOf (step (pending (.writeCmd 0x06)))).map (fun t => (t.cmd, t.status, t.pv, t.ev)) =
    some (some 0x06, 0x05, .none, .none) := by decide
-- Program 5: the fault is recorded, `STATUS` is 0x00, no register but the `CMD` the host wrote has changed
theorem test_command_at_reset :
    step (pending (.writeCmd 0x08)) = .next { State.reset with cmd := some 0x08, fault := some .unsetOperand } := rfl
-- C3, R237, R238: the run goes on, and the record stays
theorem test_run_goes_on_after_a_fault :
    (nextOf (step { pending (.writeCmd 0x08) with fault := some .unsetOperand, inBuf := some [0x00, 0x04, 0x00, 0x32] })).map
      (fun t => (t.status, t.pv.block, t.fault)) = some (0x01, some 50, some .unsetOperand) := by decide
theorem test_host_write : (nextOf (step (pending (.writePvBlock 50)))).map (·.pv.block) = some (some 50) := by decide
theorem test_host_read : (nextOf (step (pending (.read .status)))).map (·.reads) = some [⟨.status, .byte 0x00⟩] := by decide
theorem test_long_write_refused (b : Bytes) (h : Config.bufMax < b.length) :
    refusalOf (step (pending (.writeIn b))) = some .overCapacity := by
  have : fitsBuffer b = false := by simp [fitsBuffer]; omega
  simp [step, takeAction, pending, perform, storeBytes, this, refusalOf]
-- a wire opcode placed for the next step is decoded by it (DESIGN CHOICE, log 7): an Ack of four bytes
theorem test_fetch_word_wire : (nextOf (step (State.reset.withFetchWord 16 4))).map (fun t => (t.status, t.pv.op, t.pv.block)) =
    some (0x01, some 4, some 0) := by decide

/-! ### Witnesses: each statement's hypotheses are met -/

/-- A payload that fills a Data packet to exactly `BUF_MAX` bytes. -/
def fullPayload : Bytes := List.replicate (Config.bufMax - 4) 0x00
def longPayload : Bytes := List.replicate (Config.bufMax - 3) 0x00

theorem fullPayload_length : 4 + fullPayload.length = Config.bufMax := by
  have := bufMax_ge
  simp [fullPayload]; omega
theorem longPayload_length : 4 + longPayload.length = Config.bufMax + 1 := by
  have := bufMax_ge
  simp [longPayload]; omega

theorem witness_DecodeReadsExactlyTheEncodings :
    decode .wire [0x00, 0x05, 0x07] = .ok (.wireError, [0x07]) ∧ decode .command [0x09] = .ok (.maperr, []) := ⟨rfl, rfl⟩
theorem witness_OnlyOpcodesOneToFiveDecode : ((6 : Half) = 0 ∨ 6 ≤ (6 : Half).toNat) ∧ ((0 : Half) = 0 ∨ 6 ≤ (0 : Half).toNat) := by
  decide
theorem witness_StepRunsTheDecodedCommand :
    (pending (.writeCmd 0x08)).pending = .writeCmd 0x08 :: [] ∧ decode .command [0x08] = .ok (.dec, []) ∧
    ∀ c, (pending (.writeCmd c)).pending = .writeCmd c :: [] := ⟨rfl, rfl, fun _ => rfl⟩
theorem witness_DecRunsTheRowOfTheOpcode :
    (withIn [0x00, 0x05, 0x00]).inBuf = some [0x00, 0x05, 0x00] ∧
    decode .wire [0x00, 0x05, 0x00] = .ok (.wireError, [0x00]) ∧
    ∀ op, (withIn (be16 op ++ [])).inBuf = some (be16 op ++ []) := ⟨rfl, rfl, fun _ => rfl⟩
theorem witness_PlacedWordIsTheOneRun :
    decodeTableWord 8 5 = some .encError ∧ decodeTableWord 16 5 = some .wireError := by decide
theorem witness_IllegalCommandSetsOnlyStatus :
    (pending (.writeCmd 0xFF)).pending = .writeCmd 0xFF :: [] ∧
    ((0xFF : Byte) = 0x00 ∨ (0xFF : Byte) = 0x06 ∨ (0xFF : Byte) = 0x07 ∨ 0x0A ≤ (0xFF : Byte).toNat) ∧
    0x0A ≤ (0x0A : Byte).toNat := ⟨rfl, by decide, by decide⟩
theorem witness_ResetLeavesStatusZeroAndTheRestNone : (pending .reset).pending = .reset :: [] := rfl
theorem witness_HostReadChangesNoRegister :
    (pending (.read .out)).pending = .read .out :: [] ∧ readReg .out (pending (.read .out)) = none ∧
    readReg .status (pending (.read .status)) = some (.byte 0x00) := ⟨rfl, rfl, rfl⟩
theorem witness_HostWriteOnlyStoresTheValue :
    (List.replicate Config.bufMax (0x00 : Byte)).length ≤ Config.bufMax ∧
    (pending (.writeIn [])).pending = .writeIn [] :: [] ∧ (pending (.writePvFname [])).pending = .writePvFname [] :: [] ∧
    (pending (.writePvMode [])).pending = .writePvMode [] :: [] ∧ (pending (.writePvPayload [])).pending = .writePvPayload [] :: [] ∧
    (pending (.writePvMsg [])).pending = .writePvMsg [] :: [] ∧ (pending (.writeEvCtx [])).pending = .writeEvCtx [] :: [] ∧
    (pending (.writePvOp 65535)).pending = .writePvOp 65535 :: [] ∧ (pending (.writePvBlock 0)).pending = .writePvBlock 0 :: [] ∧
    (pending (.writePvEcode 8)).pending = .writePvEcode 8 :: [] ∧ (pending (.writeEvClass 7)).pending = .writeEvClass 7 :: [] ∧
    (pending (.writeEvReason 15)).pending = .writeEvReason 15 :: [] :=
  ⟨by simp, rfl, rfl, rfl, rfl, rfl, rfl, rfl, rfl, rfl, rfl, rfl⟩
theorem witness_CapacityIsKeptAndLongerWritesRefused :
    CapacityInv State.reset ∧ step State.reset = .next State.reset ∧
    Config.bufMax < (List.replicate (Config.bufMax + 1) (0x00 : Byte)).length ∧
    ∀ b, Action.writeIn b ∈ [Action.writeIn b, .writePvFname b, .writePvMode b, .writePvPayload b, .writePvMsg b, .writeEvCtx b] :=
  ⟨capacityInv_reset, rfl, by simp, fun _ => by simp⟩
theorem witness_IdleBlockHoldsItsRegisters : State.reset.pending = [] := rfl
theorem witness_SixteenBitFieldsAreBigEndian : ([0x01, 0x02] : Bytes)[0]? = some 0x01 ∧ ([0x01, 0x02] : Bytes)[0 + 1]? = some 0x02 :=
  ⟨rfl, rfl⟩
theorem witness_MemoryPrimitivesStayInBounds :
    ([0x07] : Bytes)[0]? = some 0x07 ∧ 1 ≤ ([0x07] : Bytes).length ∧ (0 ≠ 1 ∧ 0 < ([0x07] : Bytes).length) := ⟨rfl, by decide, by decide⟩
theorem firstZero_example : Claim.firstZeroFrom [0x00, 0x01, 0x61, 0x00, 0x62, 0x00] 2 3 := by
  refine ⟨by decide, rfl, fun j h1 h2 => ?_⟩
  have : j = 2 := by omega
  subst this; decide
theorem witness_GetstrStopsAtTheFirstTerminator : Claim.firstZeroFrom [0x00, 0x01, 0x61, 0x00, 0x62, 0x00] 2 3 :=
  firstZero_example
theorem witness_FieldPrimitivesInvert : Claim.noNul testText ∧ Claim.noNul [] :=
  ⟨by unfold Claim.noNul; decide, by unfold Claim.noNul; decide⟩
theorem witness_DecimalIsTheShortestSpelling : (0 : Nat) = 0 ∧ (10 : Nat) ≠ 0 := by decide

-- an encode command's operands: none, exactly filling OUT, one byte too long
theorem witness_EncRrqEncodesAReadRequest :
    (State.reset.pv.fname = none ∨ State.reset.pv.mode = none) ∧
    (withPv ⟨none, some fullPayload, some [], none, none, none, none⟩).pv.fname = some fullPayload ∧
    4 + fullPayload.length + ([] : Bytes).length ≤ Config.bufMax ∧
    Config.bufMax < 4 + longPayload.length + ([] : Bytes).length :=
  ⟨.inl rfl, rfl, by have := fullPayload_length; simp only [List.length_nil]; omega,
    by have := longPayload_length; simp only [List.length_nil]; omega⟩
theorem witness_EncWrqEncodesAWriteRequest :
    (State.reset.pv.fname = none ∨ State.reset.pv.mode = none) ∧
    (withPv ⟨none, some [], some longPayload, none, none, none, none⟩).pv.mode = some longPayload ∧
    4 + ([] : Bytes).length + fullPayload.length ≤ Config.bufMax ∧
    Config.bufMax < 4 + ([] : Bytes).length + longPayload.length :=
  ⟨.inr rfl, rfl, by have := fullPayload_length; simp only [List.length_nil]; omega,
    by have := longPayload_length; simp only [List.length_nil]; omega⟩
theorem witness_EncDataEncodesADataPacket :
    (State.reset.pv.block = none ∨ State.reset.pv.payload = none) ∧
    (withPv ⟨none, none, none, some 65535, some fullPayload, none, none⟩).pv.block = some 65535 ∧
    4 + fullPayload.length ≤ Config.bufMax ∧ Config.bufMax < 4 + longPayload.length :=
  ⟨.inl rfl, rfl, fullPayload_length.le, by have := longPayload_length; omega⟩
theorem witness_EncAckEncodesAnAck :
    State.reset.pv.block = none ∧ (withPv ⟨none, none, none, some 0, none, none, none⟩).pv.block = some 0 := ⟨rfl, rfl⟩
theorem witness_EncErrorEncodesAnErrorPacket :
    (State.reset.pv.ecode = none ∨ State.reset.pv.msg = none) ∧
    (withPv ⟨none, none, none, none, none, some 7, some longPayload⟩).pv.msg = some longPayload ∧
    8 ≤ (8 : Half).toNat ∧ (7 : Half).toNat ≤ 7 ∧ 5 + (fullPayload.drop 1).length ≤ Config.bufMax ∧
    Config.bufMax < 5 + fullPayload.length := by
  have := fullPayload_length
  have := bufMax_ge
  refine ⟨.inl rfl, rfl, by decide, by decide, ?_, by omega⟩
  simp only [List.length_drop]; omega
theorem witness_EncodeDoesNotValidate :
    Claim.fieldsHeld (.rrq [] [0x00]) (withPv ⟨none, some [], some [0x00], none, none, none, none⟩) ∧
    (Packet.rrq [] [0x00]).encodedLength ≤ Config.bufMax ∧ ∀ c g, Packet.rrq [] [0x00] = .error c g → c.toNat ≤ 7 :=
  ⟨⟨rfl, rfl⟩, by have := bufMax_ge; simp [Packet.encodedLength]; omega, by simp⟩

theorem witness_DecOfFewerThanTwoBytes :
    (withIn []).inBuf = some [] ∧ ([] : Bytes).length < 2 ∧ (withIn [0x00]).inBuf = some [0x00] ∧ ([0x00] : Bytes).length < 2 ∧
    (withIn [0x00, 0x01]).inBuf = some [0x00, 0x01] := ⟨rfl, by decide, rfl, by decide, rfl⟩
theorem witness_DecOfAnUnknownOpcode :
    (withIn [0x00, 0x06]).inBuf = some (be16 6 ++ []) ∧ ((6 : Half) = 0 ∨ 6 ≤ (6 : Half).toNat) := ⟨rfl, by decide⟩

/-- For each clause of the request decoder, bytes at the edge of its range. -/
theorem witness_RequestDecoderChecksInOrder :
    ([0x00, 0x01, 0x61, 0x00, 0x62] : Bytes).length < 6 ∧
    Claim.noZeroFrom [0x00, 0x01, 0x61, 0x62, 0x63, 0x64] 2 ∧
    ([0x00, 0x01, 0x00, 0x61, 0x62, 0x63] : Bytes)[2]? = some 0x00 ∧
    Claim.firstZeroFrom [0x00, 0x01, 0x61, 0x00, 0x62, 0x00] 2 3 ∧
    Claim.noZeroFrom [0x00, 0x01, 0x61, 0x00, 0x62, 0x63] (3 + 1) ∧
    ([0x00, 0x01, 0x61, 0x00, 0x00, 0x63] : Bytes)[3 + 1]? = some 0x00 ∧
    Claim.firstZeroFrom [0x00, 0x01, 0x61, 0x00, 0x62, 0x00] (3 + 1) 5 := by
  have nz : ∀ (b : Bytes) (i : Nat), find0 b i = none → Claim.noZeroFrom b i := fun _ _ h => find0_eq_none_iff.mp h
  have fz : ∀ (b : Bytes) (i k : Nat), find0 b i = some k → Claim.firstZeroFrom b i k := fun _ _ _ h => find0_eq_some_iff.mp h
  exact ⟨by decide, nz _ _ rfl, rfl, firstZero_example, nz _ _ rfl, rfl, fz _ _ _ rfl⟩
theorem witness_DataDecoderTakesTheRestAsPayload :
    (withIn [0x00, 0x03, 0xFF, 0xFF]).inBuf = some ([0x00, 0x03] ++ be16 65535 ++ []) ∧ ([0x00, 0x03, 0x00] : Bytes).length < 4 :=
  ⟨rfl, by decide⟩
theorem witness_AckDecoderIsStrict :
    (withIn [0x00, 0x04, 0x00, 0x00]).inBuf = some ([0x00, 0x04] ++ be16 0) ∧ ([0x00, 0x04, 0x00, 0x32, 0x00] : Bytes).length ≠ 4 :=
  ⟨rfl, by decide⟩
theorem witness_ErrorDecoderChecksInOrder :
    ([0x00, 0x05, 0x00, 0x01] : Bytes).length < 5 ∧ (1 ≤ ([0x00] : Bytes).length ∧ 8 ≤ (8 : Half).toNat) ∧
    ((7 : Half).toNat ≤ 7 ∧ Claim.noNul [0x54]) ∧ ([0x00] : Bytes) = [] ++ [0x00] ++ [] ∧ Claim.noNul [] ∧
    (withIn [0x00, 0x05, 0x00, 0x07, 0x00]).inBuf = some ([0x00, 0x05] ++ be16 7 ++ [0x00]) :=
  ⟨by decide, by decide, ⟨by decide, by unfold Claim.noNul; decide⟩, rfl, by unfold Claim.noNul; decide, rfl⟩
theorem witness_DecAcceptsExactlyTheLayouts :
    (withIn [0x00, 0x05, 0x00, 0x07, 0x00, 0x42]).inBuf = some (Claim.layout (.error 7 []) ++ [0x42]) ∧
    Claim.accepted 7 (.error 7 []) ∧ Claim.ignoresTail (.error 7 []) :=
  ⟨rfl, ⟨by decide, by unfold Claim.noNul; decide⟩, trivial⟩
theorem witness_DecAlwaysEndsClassified : (withIn []).inBuf = some [] := rfl
theorem witness_EncodeThenDecodeGivesThePacketBack :
    (Packet.error 7 testText).valid = true ∧
    Claim.fieldsHeld (.error 7 testText) (withPv ⟨none, none, none, none, none, some 7, some testText⟩) :=
  ⟨by decide +kernel, rfl, rfl⟩
theorem witness_MaperrMapsEveryErrorValue :
    (State.reset.ev.cls = none ∨ State.reset.ev.ctx = none) ∧ (withEv 0 []).ev.cls = some 0 ∧
    (withEv 7 []).ev.cls = some 7 ∧ (withEv 7 []).ev.ctx = some [] ∧ (7 : BitVec 3) ≠ 0 := ⟨.inl rfl, rfl, rfl, rfl, by decide⟩
theorem witness_KindTextMeetsItsConstraints : ((2 : BitVec 3) = 2 ∨ (2 : BitVec 3) = 3) ∧ ((3 : BitVec 3) = 2 ∨ (3 : BitVec 3) = 3) := by
  decide
theorem witness_ReasonTextMeetsItsConstraints : reasonText (.unknownOpcode 65535) = reasonText (.unknownOpcode 65535) := rfl
theorem witness_EncErrorAfterMaperrIsNeverOutOfRange :
    Claim.ready .maperr (withEv 7 []) ∧ ∃ t, exec .maperr (withEv 7 []) = .next t := ⟨by unfold Claim.ready; decide, _, rfl⟩
theorem witness_MaperrReportsTheCodecFailure :
    Claim.ready .dec (withIn []) ∧ (∃ t, exec .dec (withIn []) = .next t ∧ t.status = 0x03) ∧
    Claim.ready .encError (withPv ⟨none, none, none, none, none, some 8, some []⟩) ∧
    (∃ t, exec .encError (withPv ⟨none, none, none, none, none, some 8, some []⟩) = .next t ∧ t.status = 0x03) :=
  ⟨by unfold Claim.ready; decide, ⟨_, rfl, rfl⟩, by unfold Claim.ready; decide, ⟨_, rfl, rfl⟩⟩
theorem witness_UnsetOperandExactlyOnNone :
    (∃ r ∈ operands .maperr, readReg r State.reset = none) ∧ Claim.ready .maperr (withEv 0 []) := by
  unfold Claim.ready; decide
theorem witness_ReadyInstructionsComplete : Claim.ready .maperr (withEv 0 []) := by unfold Claim.ready; decide
theorem witness_CommandsRaiseOnlyTheirErrors :
    Claim.ready .wireAck (withIn []) ∧ (∃ t, exec .wireAck (withIn []) = .next t ∧ t.status = 0x03) ∧
    Claim.ready .encData (withPv ⟨none, none, none, some 1, some longPayload, none, none⟩) ∧
    (∃ t, exec .encData (withPv ⟨none, none, none, some 1, some longPayload, none, none⟩) = .next t ∧ t.status = 0x03) := by
  refine ⟨by unfold Claim.ready; decide, ⟨_, rfl, rfl⟩, by simp [Claim.ready, operands, readReg, withPv],
    raiseEnc .encShortWrite (withPv ⟨none, none, none, some 1, some longPayload, none, none⟩), ?_, rfl⟩
  refine congrArg Host.Outcome.next (encFinish_of_lt ?_)
  rw [packetBytes_length]
  have := longPayload_length
  simp only [Packet.encodedLength]; omega
theorem witness_CommandsWriteExactlyTheirRegisters :
    (∃ t, exec .encAck State.reset = .next t) ∧ (∃ r ∈ operands .encAck, readReg r State.reset = none) ∧
    Claim.ready .encAck (withPv ⟨none, none, none, some 1, none, none, none⟩) ∧ Claim.ready .dec (withIn []) ∧
    Claim.ready .maperr (withEv 0 []) ∧ (∃ t, exec .encAck (withPv ⟨none, none, none, some 1, none, none, none⟩) = .next t) ∧
    (∃ t, exec .encError (withPv ⟨none, none, none, none, none, some 8, some []⟩) = .next t) ∧
    (∃ t, exec .wireData (withIn [0x00, 0x03, 0x00, 0x00]) = .next t) ∧
    (∃ t, exec .dec (withIn []) = .next t) ∧ (∃ t, exec .maperr (withEv 0 []) = .next t) ∧
    (pending (.writeCmd 0x06)).pending = .writeCmd 0x06 :: [] ∧ decodeCommand 0x06 = none :=
  ⟨⟨_, rfl⟩, by decide, by unfold Claim.ready; decide, by unfold Claim.ready; decide, by unfold Claim.ready; decide,
    ⟨_, rfl⟩, ⟨_, rfl⟩, ⟨_, rfl⟩, ⟨_, rfl⟩, ⟨_, rfl⟩, rfl, rfl⟩
theorem witness_CommandsAreIdempotent : ∃ t, exec .wireError (withIn [0x00, 0x05, 0x00, 0x08, 0x00]) = .next t := ⟨_, rfl⟩
theorem witness_ResultDependsOnOperandsOnly :
    Claim.ready .dec (withIn []) ∧
    Claim.agree (operands .dec) (withIn []) { withIn [] with status := 0x03, ev := ⟨some 4, some 1, some []⟩ } ∧
    ∃ t, exec .dec (withIn []) = .next t := by
  refine ⟨by unfold Claim.ready; decide, fun r hr => ?_, ⟨_, rfl⟩⟩
  have : r = .inBuf := by simpa [operands] using hr
  subst this; rfl
theorem witness_StepKeepsTheInvariant : Inv State.reset ∧ step State.reset = .next State.reset :=
  ⟨⟨capacityInv_reset, .inl rfl, fun _ => .inl ⟨rfl, rfl⟩⟩, rfl⟩
theorem witness_StatusFieldsAreConsistent : NoFault { State.reset with cmd := some 0x06, status := 0x05 } ∧
    Inv { State.reset with cmd := some 0x06, status := 0x05 } ∧
    Inv { State.reset with cmd := some 0x08, status := 0x03, ev := ⟨some 4, some 1, some []⟩ } := by
  refine ⟨rfl, ⟨capacityInv_reset, .inr (.inr (.inl rfl)), fun _ => .inr (.inl ⟨0x06, rfl, rfl, rfl⟩)⟩,
    ⟨?_, .inr (.inr (.inr ⟨rfl, ?_⟩)), fun _ => .inr (.inr (.inr ⟨0x08, .dec, rfl, rfl, rfl, ?_⟩))⟩⟩
  · simp [CapacityInv, State.reset, PacketValue.none]
  · simp
  · simp [isEnc]
theorem witness_StepStopsOnlyAsTheSpecSays :
    (∃ t, step (pending (.writeCmd 0x08)) = .next t ∧ NoFault (pending (.writeCmd 0x08)) ∧ t.fault ≠ none) ∧
    (∃ t, step { pending .reset with fault := some .unsetOperand } = .next t) ∧
    step (pending (.writeIn (List.replicate (Config.bufMax + 1) 0x00))) = .refused .overCapacity := by
  refine ⟨⟨_, rfl, rfl, by decide⟩, ⟨_, rfl⟩, ?_⟩
  simp [step, takeAction, pending, perform, storeBytes, fitsBuffer]
theorem witness_InstancesAreIndependent :
    (0 : Nat) ≠ 1 ∧ (∃ z, systemStep 0 ⟨[State.reset, State.reset]⟩ = .next z) ∧
    ∃ z, systemStep 1 ⟨[State.reset, State.reset]⟩ = .next z := ⟨by decide, ⟨_, rfl⟩, ⟨_, rfl⟩⟩
theorem witness_InstancesStartAtReset : systemReset.instances[0]? = some State.reset := by
  simp [systemReset, Config.instances]
  rfl

/-- The clauses beside the first are those of `witness_RequestDecoderChecksInOrder`, on the same bytes. -/
theorem witness_DecOfARequestChecksInOrder :
    (withIn [0x00, 0x01, 0x61, 0x00, 0x62, 0x00]).inBuf = some [0x00, 0x01, 0x61, 0x00, 0x62, 0x00] ∧
    ([0x00, 0x01, 0x61, 0x00, 0x62, 0x00] : Bytes) = be16 1 ++ [0x61, 0x00, 0x62, 0x00] ∧
    Claim.firstZeroFrom [0x00, 0x01, 0x61, 0x00, 0x62, 0x00] 2 3 ∧
    ([0x00, 0x02, 0x61, 0x00, 0x62] : Bytes) = be16 2 ++ [0x61, 0x00, 0x62] := ⟨rfl, rfl, firstZero_example, rfl⟩
theorem witness_DecOfADataPacket :
    (withIn [0x00, 0x03, 0xFF, 0xFF]).inBuf = some ([0x00, 0x03] ++ (be16 65535 ++ [])) ∧
    (withIn [0x00, 0x03, 0x00]).inBuf = some ([0x00, 0x03] ++ [0x00]) ∧ ([0x00] : Bytes).length < 2 := ⟨rfl, rfl, by decide⟩
theorem witness_DecOfAnAck :
    (withIn [0x00, 0x04, 0xFF, 0xFF]).inBuf = some ([0x00, 0x04] ++ be16 65535) ∧
    (withIn [0x00, 0x04, 0x00, 0x32, 0x00]).inBuf = some ([0x00, 0x04] ++ [0x00, 0x32, 0x00]) ∧
    ([0x00, 0x32, 0x00] : Bytes).length ≠ 2 := ⟨rfl, rfl, by decide⟩
theorem witness_DecOfAnErrorPacket :
    (withIn [0x00, 0x05, 0x00, 0x07, 0x00]).inBuf = some ([0x00, 0x05] ++ (be16 7 ++ [0x00])) ∧
    ([0x00, 0x07] : Bytes).length < 3 ∧ 1 ≤ ([0x00] : Bytes).length ∧ (7 : Half).toNat ≤ 7 ∧ 8 ≤ (8 : Half).toNat ∧
    (8 : Half).toNat ≤ 8 ∧ 9 ≤ (9 : Half).toNat ∧ Claim.noNul [0x54] ∧ ([0x00] : Bytes) = [] ++ [0x00] ++ [] ∧ Claim.noNul [] :=
  ⟨rfl, by decide, by decide, by decide, by decide, by decide, by decide, by unfold Claim.noNul; decide, rfl,
    by unfold Claim.noNul; decide⟩

theorem witness_ResetKeepsWhatIsNotTheBlocks :
    ({ pending .reset with pending := [.reset, .read .cmd] } : State).pending = .reset :: [.read .cmd] := rfl

end Sys2Proof.Tests
end

section
/-! PROOFS. The family 00_scope.md: the decimal spelling (R16) and the memory primitives (R12). -/

namespace Sys2Proof.Proofs.Scope

open Machine

/-! ### The decimal spelling -/

/-- The byte that spells a decimal digit has the digit's ASCII code: nothing is lost in 8 bits. -/
theorem asciiDigit_toNat (v : Nat) : (BitVec.ofNat 8 (0x30 + v % 10)).toNat = 0x30 + v % 10 := by
  rw [BitVec.toNat_ofNat, Nat.mod_eq_of_lt (by omega)]

theorem decimalDigits_of_lt_ten (fuel : Nat) {v : Nat} (tail : Bytes) (h : v < 10) :
    decimalDigits (fuel + 1) v tail = BitVec.ofNat 8 (0x30 + v % 10) :: tail :=
  if_pos (Nat.div_eq_of_lt h)

theorem decimalDigits_of_ten_le (fuel : Nat) {v : Nat} (tail : Bytes) (h : 10 ≤ v) :
    decimalDigits (fuel + 1) v tail = decimalDigits fuel (v / 10) (BitVec.ofNat 8 (0x30 + v % 10) :: tail) :=
  if_neg (by omega)

/-- Only ASCII digits are put before the tail. -/
theorem decimalDigits_mem_isDigit (fuel v : Nat) (tail : Bytes) (htail : ∀ d ∈ tail, 0x30 ≤ d.toNat ∧ d.toNat ≤ 0x39) :
    ∀ d ∈ decimalDigits fuel v tail, 0x30 ≤ d.toNat ∧ d.toNat ≤ 0x39 := by
  induction fuel generalizing v tail with
  | zero => exact htail
  | succ fuel ih =>
    have hcons : ∀ d ∈ BitVec.ofNat 8 (0x30 + v % 10) :: tail, 0x30 ≤ d.toNat ∧ d.toNat ≤ 0x39 :=
      List.forall_mem_cons.mpr ⟨by rw [asciiDigit_toNat]; omega, htail⟩
    rcases Nat.lt_or_ge v 10 with hv | hv
    · rwa [decimalDigits_of_lt_ten fuel tail hv]
    · rw [decimalDigits_of_ten_le fuel tail hv]
      exact ih _ _ hcons

/-- With fuel for every digit, a number other than 0 is spelled with a first digit other than `'0'`: the last digit put in
front is the number's leading one. -/
theorem decimalDigits_head_ne_zero (fuel v : Nat) (tail : Bytes) (hfuel : v < fuel) (hv : v ≠ 0) :
    ∃ d rest, decimalDigits fuel v tail = d :: rest ∧ d ≠ 0x30 := by
  induction fuel generalizing v tail with
  | zero => omega
  | succ fuel ih =>
    rcases Nat.lt_or_ge v 10 with hlt | hge
    · refine ⟨_, _, decimalDigits_of_lt_ten fuel tail hlt, fun heq => ?_⟩
      have hcode : 0x30 + v % 10 = 0x30 := by rw [← asciiDigit_toNat, heq]; rfl
      omega
    · rw [decimalDigits_of_ten_le fuel tail hge]
      exact ih _ _ (by omega) (by omega)

/-- Reading the digits of `decimal v` gives `v` back (R16). -/
theorem readDigits_decimal (v : Nat) : readDigits 0 (decimal v) = v :=
  readDigits_decimalDigits (v + 1) v [] (Nat.lt_succ_self v)

/-- Settles O15: digits, value and leading digit are each an induction over the digits still to be put in front. -/
theorem decimalIsTheShortestSpelling : Obligations.DecimalIsTheShortestSpelling := by
  intro v
  refine ⟨decimalDigits_mem_isDigit _ v [] (by simp), readDigits_decimal v, ?_,
    decimalDigits_head_ne_zero _ v [] (Nat.lt_succ_self v)⟩
  rintro rfl
  exact decimalDigits_of_lt_ten 0 [] (by decide)

/-! ### The memory primitives -/

theorem memRead_isSome_iff (b : Bytes) (a n : Nat) : (∃ v, memRead b a n = some v) ↔ a + n ≤ b.length := by
  by_cases h : a + n ≤ b.length <;> simp [memRead, h]

theorem slice_one {b : Bytes} {a : Nat} {x : Byte} (h : b[a]? = some x) : slice b a (a + 1) = [x] := by
  obtain ⟨ha, rfl⟩ := List.getElem?_eq_some_iff.mp h
  rw [slice, List.drop_take, Nat.add_sub_cancel_left, List.drop_eq_getElem_cons ha]
  rfl

theorem memRead_one {b : Bytes} {a : Nat} {x : Byte} (h : b[a]? = some x) : memRead b a 1 = some x.toNat := by
  obtain ⟨ha, -⟩ := List.getElem?_eq_some_iff.mp h
  rw [memRead, if_pos (by omega), slice_one h]
  simp [bigEndian]

/-- R101: `rd16` answers the field that `MemRead` of two bytes answers, and only that one. -/
theorem rd16_eq_some_iff (b : Bytes) (a : Nat) (v : Half) : rd16 b a = some v ↔ memRead b a 2 = some v.toNat :=
  ⟨rd16_toNat, fun h => by simp [rd16, h]⟩

/-- `field` put over the bytes of `out` from index `a` on is what is read there. -/
theorem getElem?_overwrite_inside {out : Bytes} (field : Bytes) {a j : Nat} (ha : a ≤ out.length) (hj : j < field.length) :
    (out.take a ++ field ++ out.drop (a + field.length))[a + j]? = field[j]? := by
  have hlen : (out.take a).length = a := List.length_take_of_le ha
  rw [List.append_assoc, List.getElem?_append_right (by omega), hlen, Nat.add_sub_cancel_left,
    List.getElem?_append_left hj]

/-- `field` put over the bytes of `out` from index `a` on leaves the bytes before and after it as they were. -/
theorem getElem?_overwrite_outside {out : Bytes} (field : Bytes) {a k : Nat} (ha : a ≤ out.length)
    (hk : k < a ∨ a + field.length ≤ k) :
    (out.take a ++ field ++ out.drop (a + field.length))[k]? = out[k]? := by
  have hlen : (out.take a).length = a := List.length_take_of_le ha
  rcases hk with hbefore | hafter
  · rw [List.append_assoc, List.getElem?_append_left (by omega), List.getElem?_take_of_lt hbefore]
  · have hwritten : (out.take a ++ field).length = a + field.length := by rw [List.length_append, hlen]
    rw [List.getElem?_append_right (by omega), hwritten, List.getElem?_drop, Nat.add_sub_cancel' hafter]

/-- R12: a written byte is read at its index. -/
theorem memWrite_byte_at {out : Bytes} {a : Nat} (v : Half) (ha : a ≤ out.length) :
    (memWrite out a 1 v)[a]? = some (v.extractLsb' 0 8) :=
  getElem?_overwrite_inside [v.extractLsb' 0 8] (j := 0) ha Nat.zero_lt_one

/-- R12: a written byte leaves every other byte as it was. -/
theorem memWrite_byte_frame {out : Bytes} {a k : Nat} (v : Half) (ha : a ≤ out.length) (hk : k ≠ a) :
    (memWrite out a 1 v)[k]? = out[k]? :=
  getElem?_overwrite_outside [v.extractLsb' 0 8] ha (by simp only [List.length_singleton]; omega)

/-- R12, R100: a written 16-bit field is read at its two indices, the more significant byte first. -/
theorem memWrite_half_at {out : Bytes} {a j : Nat} (v : Half) (ha : a ≤ out.length) (hj : j < 2) :
    (memWrite out a 2 v)[a + j]? = (be16 v)[j]? :=
  getElem?_overwrite_inside (be16 v) ha hj

/-- R12: a written 16-bit field leaves every byte but its two as it was. -/
theorem memWrite_half_frame {out : Bytes} {a k : Nat} (v : Half) (ha : a ≤ out.length) (hk : k ≠ a) (hk' : k ≠ a + 1) :
    (memWrite out a 2 v)[k]? = out[k]? :=
  getElem?_overwrite_outside (be16 v) ha (by rw [be16_length]; omega)

/-- Settles O14: the read's bound and values, then the written field and its frame for each of the two lengths. -/
theorem memoryPrimitivesStayInBounds : Obligations.MemoryPrimitivesStayInBounds := by
  refine ⟨memRead_isSome_iff, fun _ _ _ => memRead_one, rd16_eq_some_iff, fun out a v ha => ?_⟩
  exact ⟨memWrite_byte_at v ha, fun _ hk _ => memWrite_byte_frame v ha hk,
    memWrite_half_at v ha (j := 0) (by decide), memWrite_half_at v ha (j := 1) (by decide),
    fun _ hk hk' _ => memWrite_half_frame v ha hk hk'⟩

end Sys2Proof.Proofs.Scope
end

section
/-! PROOFS. The family 10_state.md: reset (R34), the capacity (R23), what each command writes (R29) and from what (R32), and
the invariant with `STATUS` (R27). -/

namespace Sys2Proof.Proofs.Registers

open Machine

/-! ### The three families of instructions -/

theorem isEnc_or_isDec_or_maperr (i : Instr) : isEnc i = true ∨ isDec i = true ∨ i = .maperr := by
  cases i <;> decide

/-- R29: what every ENC command can write. -/
theorem writes_of_enc {i : Instr} (h : isEnc i = true) : writes i = [.status, .out, .evClass, .evReason, .evCtx] := by
  revert h
  cases i <;> decide

/-- R29: what DEC and each of its variant decoders can write. -/
theorem writes_of_dec {i : Instr} (h : isDec i = true) :
    writes i = [.status, .pvOp, .pvFname, .pvMode, .pvBlock, .pvPayload, .pvEcode, .pvMsg, .evClass, .evReason, .evCtx] := by
  revert h
  cases i <;> decide

theorem isEnc_of_dec {i : Instr} (h : isDec i = true) : isEnc i = false := by
  revert h
  cases i <;> decide

theorem isDec_of_decoder {i : Instr} {d : Bytes → Decoded} (h : decoderOf i = some d) : isDec i = true := by
  rw [← decoderOf_isSome, h]; rfl

theorem operands_of_dec {i : Instr} (h : isDec i = true) : operands i = [.inBuf] := by
  revert h
  cases i <;> decide

/-- No command writes a register that it reads (R29, R82). -/
theorem operands_not_written (i : Instr) : ∀ r ∈ operands i, r ∉ writes i := by
  cases i <;> decide

/-! ### What a command leaves, its operands holding values (R29, R200) -/

/-- EV holds an error (R28). -/
def ErrorHeld (s : State) : Prop := s.ev.cls ≠ none ∧ s.ev.reason ≠ none ∧ s.ev.ctx ≠ none

theorem errorHeld_raiseEnc (r : Reason) (s : State) : ErrorHeld (raiseEnc r s) := by simp [ErrorHeld]

theorem errorHeld_raiseDec (r : Reason) (s : State) : ErrorHeld (raiseDec r s) := by simp [ErrorHeld]

theorem ready_iff (i : Instr) (s : State) : Claim.ready i s ↔ operandsReady i s = true := (operandsReady_iff i s).symm

theorem packetRegs_eq_pvOf (p : Packet) : packetRegs p = Claim.pvOf p := by cases p <;> rfl

/-- `exec_next_cases` without the recorded fault: an instruction whose operands hold values encodes, decodes or raises, or
maps (R29). -/
theorem exec_next_cases_of_ready {i : Instr} {s t : State} (hr : Claim.ready i s) (h : exec i s = .next t) :
    (∃ p, isEnc i = true ∧ encPacket i s = some p ∧ t = encOutcome p s) ∨
    (∃ d b p, decoderOf i = some d ∧ s.inBuf = some b ∧ d b = .packet p ∧ t = decFinish p s) ∨
    (∃ d b r, decoderOf i = some d ∧ s.inBuf = some b ∧ d b = .raised r ∧ isDecodeReason r = true ∧ t = raiseDec r s) ∨
    (∃ c x, i = .maperr ∧ s.ev.cls = some c ∧ s.ev.ctx = some x ∧
      t = finish (writePacket (.error (c.setWidth 16) (message c x)) s)) := by
  refine (exec_next_cases h).resolve_left fun ⟨hn, _⟩ => ?_
  rw [ready_iff, hn] at hr
  cases hr

/-- An ENC command encodes the packet that its operand registers hold. -/
theorem exec_enc_of_ready {i : Instr} {s t : State} (he : isEnc i = true) (hr : Claim.ready i s) (h : exec i s = .next t) :
    ∃ p, encPacket i s = some p ∧ t = encOutcome p s := by
  obtain ⟨p, -, hp, e⟩ | ⟨_, _, _, hd, -⟩ | ⟨_, _, _, hd, -⟩ | ⟨_, _, rfl, -⟩ := exec_next_cases_of_ready hr h
  · exact ⟨p, hp, e⟩
  · exact absurd he (by simp [isEnc_of_dec (isDec_of_decoder hd)])
  · exact absurd he (by simp [isEnc_of_dec (isDec_of_decoder hd)])
  · cases he

/-- ENC.ACK's packet is an Ack, the one that always fits (R124). -/
theorem encPacket_encAck {s : State} {p : Packet} (h : encPacket .encAck s = some p) : ∃ n, p = .ack n := by
  obtain ⟨n, -, rfl⟩ := Option.map_eq_some_iff.mp h
  exact ⟨n, rfl⟩

/-- An ENC command leaves a packet in `OUT` and no error, or an error and no packet; ENC.ACK always the former. -/
theorem exec_enc_outcome {i : Instr} {s t : State} (he : isEnc i = true) (hr : Claim.ready i s) (h : exec i s = .next t) :
    t.pv = s.pv ∧
      ((t.status = 0x01 ∧ t.out ≠ none ∧ t.ev = ⟨none, none, none⟩) ∨
       (i ≠ .encAck ∧ t.status = 0x03 ∧ t.out = none ∧ ErrorHeld t)) := by
  obtain ⟨p, hp, rfl⟩ := exec_enc_of_ready he hr h
  obtain ⟨-, e⟩ | ⟨hack, -, e⟩ | ⟨c, g, rfl, -, e⟩ := encOutcome_cases p s <;> rw [e]
  · exact ⟨rfl, .inl ⟨rfl, Option.some_ne_none _, rfl⟩⟩
  · refine ⟨rfl, .inr ⟨?_, rfl, rfl, errorHeld_raiseEnc _ s⟩⟩
    rintro rfl
    obtain ⟨n, rfl⟩ := encPacket_encAck hp
    exact hack n rfl
  · refine ⟨rfl, .inr ⟨?_, rfl, rfl, errorHeld_raiseEnc _ s⟩⟩
    rintro rfl
    obtain ⟨n, hn⟩ := encPacket_encAck hp
    cases hn

/-- DEC and its variant decoders end with a packet value or in a raise. -/
theorem exec_dec_of_ready {i : Instr} {s t : State} (hd : isDec i = true) (hr : Claim.ready i s) (h : exec i s = .next t) :
    (∃ p, t = decFinish p s) ∨ ∃ r, t = raiseDec r s := by
  obtain ⟨p, he, -, -⟩ | ⟨_, _, p, -, -, -, e⟩ | ⟨_, _, r, -, -, -, -, e⟩ | ⟨_, _, rfl, -⟩ := exec_next_cases_of_ready hr h
  · rw [isEnc_of_dec hd] at he
    cases he
  · exact .inl ⟨p, e⟩
  · exact .inr ⟨r, e⟩
  · cases hd

/-- DEC leaves a packet value in PV and no error, or an error and all of PV at NONE. -/
theorem exec_dec_outcome {i : Instr} {s t : State} (hd : isDec i = true) (hr : Claim.ready i s) (h : exec i s = .next t) :
    t.out = s.out ∧
      ((t.status = 0x01 ∧ t.ev = ⟨none, none, none⟩ ∧ ∃ p, t.pv = Claim.pvOf p) ∨
       (t.status = 0x03 ∧ t.pv = ⟨none, none, none, none, none, none, none⟩ ∧ ErrorHeld t)) := by
  obtain ⟨p, rfl⟩ | ⟨r, rfl⟩ := exec_dec_of_ready hd hr h
  · exact ⟨rfl, .inl ⟨rfl, rfl, p, packetRegs_eq_pvOf p⟩⟩
  · exact ⟨rfl, .inr ⟨rfl, rfl, errorHeld_raiseDec r s⟩⟩

/-- MAPERR leaves an Error packet value and never raises (R174). -/
theorem exec_maperr_outcome {s t : State} (hr : Claim.ready .maperr s) (h : exec .maperr s = .next t) :
    t.out = s.out ∧ t.ev = s.ev ∧ t.status = 0x01 ∧ ∃ c g, t.pv = Claim.errorPv c g := by
  obtain ⟨p, he, -⟩ | ⟨_, _, _, hd, -⟩ | ⟨_, _, _, hd, -⟩ | ⟨c, x, -, -, -, rfl⟩ := exec_next_cases_of_ready hr h
  · cases he
  · cases hd
  · cases hd
  · exact ⟨rfl, rfl, rfl, c.setWidth 16, message c x, rfl⟩

/-! ### What a command leaves unchanged (R29) -/

/-- Every command leaves `CMD`, `IN` and the fields of the host's run as they were. -/
theorem exec_keeps_hostFields {i : Instr} {s t : State} (h : exec i s = .next t) :
    t.cmd = s.cmd ∧ t.inBuf = s.inBuf ∧ t.pending = s.pending ∧ t.reads = s.reads ∧ t.stream = s.stream ∧
      t.nfree = s.nfree := by
  obtain ⟨-, rfl⟩ | ⟨p, -, -, rfl⟩ | ⟨_, _, p, -, -, -, rfl⟩ | ⟨_, _, r, -, -, -, -, rfl⟩ | ⟨c, x, -, -, -, rfl⟩ :=
    exec_next_cases h
  · exact ⟨rfl, rfl, rfl, rfl, rfl, rfl⟩
  · obtain ⟨o, e, st, hw⟩ := encOutcome_writes p
    rw [hw s]
    exact ⟨rfl, rfl, rfl, rfl, rfl, rfl⟩
  all_goals exact ⟨rfl, rfl, rfl, rfl, rfl, rfl⟩

/-- A command records a fault only where an operand register holds NONE (R210). -/
theorem exec_fault_of_ready {i : Instr} {s t : State} (hr : Claim.ready i s) (h : exec i s = .next t) : t.fault = s.fault := by
  obtain ⟨p, -, -, rfl⟩ | ⟨_, _, p, -, -, -, rfl⟩ | ⟨_, _, r, -, -, -, -, rfl⟩ | ⟨c, x, -, -, -, rfl⟩ :=
    exec_next_cases_of_ready hr h
  · obtain ⟨o, e, st, hw⟩ := encOutcome_writes p
    rw [hw s]
  all_goals rfl

/-- Every register outside a command's list reads as before. -/
theorem exec_readReg_frame {i : Instr} {s t : State} (h : exec i s = .next t) {r : Reg} (hr : r ∉ writes i) :
    readReg r t = readReg r s := by
  obtain ⟨-, rfl⟩ | ⟨p, he, -, rfl⟩ | ⟨_, _, p, hd, -, -, rfl⟩ | ⟨_, _, q, hd, -, -, -, rfl⟩ | ⟨c, x, rfl, -, -, rfl⟩ :=
    exec_next_cases h
  · cases r <;> rfl
  · obtain ⟨o, e, st, hw⟩ := encOutcome_writes p
    rw [hw s]
    rw [writes_of_enc he] at hr
    revert hr
    cases r <;> simp [readReg]
  · rw [writes_of_dec (isDec_of_decoder hd)] at hr
    revert hr
    cases r <;> simp [readReg]
  · rw [writes_of_dec (isDec_of_decoder hd)] at hr
    revert hr
    cases r <;> simp [readReg]
  · revert hr
    cases r <;> simp [readReg, writes]

/-- An illegal code changes `STATUS` alone, `CMD` holding the code (R83). -/
theorem step_of_illegal_command {s : State} {c : Byte} {rest : List Action} (h : s.pending = .writeCmd c :: rest)
    (hc : decodeCommand c = none) : step s = .next { s with pending := rest, cmd := some c, status := 0x05 } :=
  (step_of_cons h).trans (startCommand_of_none hc _)

/-- Settles O42: the frame, the recorded fault, and the outcome of each of the three families. -/
theorem commandsWriteExactlyTheirRegisters : Obligations.CommandsWriteExactlyTheirRegisters := by
  refine ⟨fun i s t h => ?_, fun s c rest h hc => ?_⟩
  · obtain ⟨hcmd, hin, hpending, hreads, hstream, hnfree⟩ := exec_keeps_hostFields h
    refine ⟨fun r hr => exec_readReg_frame h hr, operands_not_written i, hcmd, hin, hpending, hreads, hstream, hnfree,
      fun hn => ?_, fun hr => exec_fault_of_ready hr h, fun hr he => ?_, fun hr hd => exec_dec_outcome hd hr h, ?_⟩
    · rw [exec_of_not_ready ((operandsReady_eq_false_iff i s).mpr hn)] at h
      cases h
      rfl
    · obtain ⟨hpv, hfinish | ⟨-, hraise⟩⟩ := exec_enc_outcome he hr h
      · exact ⟨hpv, .inl hfinish⟩
      · exact ⟨hpv, .inr hraise⟩
    · rintro hr rfl
      exact exec_maperr_outcome hr h
  · refine ⟨_, step_of_illegal_command h hc, rfl, rfl, fun r hstatus hcmd => ?_⟩
    cases r with
    | status => exact absurd rfl hstatus
    | cmd => exact absurd rfl hcmd
    | _ => rfl

/-! ### What a command's result depends on (R32) -/

theorem bytes_eq_of_readReg {a b : Option Bytes} (h : a.map RegVal.bytes = b.map RegVal.bytes) : a = b :=
  Option.map_injective (fun _ _ => RegVal.bytes.inj) h

theorem half_eq_of_readReg {a b : Option Half} (h : a.map RegVal.half = b.map RegVal.half) : a = b :=
  Option.map_injective (fun _ _ => RegVal.half.inj) h

theorem cls_eq_of_readReg {a b : Option (BitVec 3)} (h : a.map RegVal.cls = b.map RegVal.cls) : a = b :=
  Option.map_injective (fun _ _ => RegVal.cls.inj) h

/-- The packet an ENC command encodes is read from its operand registers alone (R127). -/
theorem encPacket_eq_of_agree {i : Instr} {s s' : State} (h : Claim.agree (operands i) s s') :
    encPacket i s = encPacket i s' := by
  cases i with
  | encRrq =>
    have hf : s.pv.fname = s'.pv.fname := bytes_eq_of_readReg (h .pvFname (by decide))
    have hm : s.pv.mode = s'.pv.mode := bytes_eq_of_readReg (h .pvMode (by decide))
    simp only [encPacket, hf, hm]
  | encWrq =>
    have hf : s.pv.fname = s'.pv.fname := bytes_eq_of_readReg (h .pvFname (by decide))
    have hm : s.pv.mode = s'.pv.mode := bytes_eq_of_readReg (h .pvMode (by decide))
    simp only [encPacket, hf, hm]
  | encData =>
    have hb : s.pv.block = s'.pv.block := half_eq_of_readReg (h .pvBlock (by decide))
    have hp : s.pv.payload = s'.pv.payload := bytes_eq_of_readReg (h .pvPayload (by decide))
    simp only [encPacket, hb, hp]
  | encAck =>
    have hb : s.pv.block = s'.pv.block := half_eq_of_readReg (h .pvBlock (by decide))
    simp only [encPacket, hb]
  | encError =>
    have hc : s.pv.ecode = s'.pv.ecode := half_eq_of_readReg (h .pvEcode (by decide))
    have hg : s.pv.msg = s'.pv.msg := bytes_eq_of_readReg (h .pvMsg (by decide))
    simp only [encPacket, hc, hg]
  | _ => rfl

/-- The bytes a decoder runs on are those of its operand register `IN` alone (R150). -/
theorem exec_decoder_of_agree {i : Instr} {d : Bytes → Decoded} {b : Bytes} {s s' : State} (hd : decoderOf i = some d)
    (hb : s.inBuf = some b) (h : Claim.agree (operands i) s s') : exec i s' = deliver (d b) s' := by
  rw [operands_of_dec (isDec_of_decoder hd)] at h
  have hin : s.inBuf = s'.inBuf := bytes_eq_of_readReg (h .inBuf (List.mem_singleton_self _))
  rw [exec_of_decoder hd, runDecoder_of_some (hin ▸ hb)]

/-- Settles O44: each ending writes values that the operand registers alone determine. -/
theorem resultDependsOnOperandsOnly : Obligations.ResultDependsOnOperandsOnly := by
  intro i s s' t hr ha h
  obtain ⟨p, he, hp, rfl⟩ | ⟨d, b, p, hd, hb, hdb, rfl⟩ | ⟨d, b, q, hd, hb, hdb, -, rfl⟩ | ⟨c, x, rfl, hc, hx, rfl⟩ :=
    exec_next_cases_of_ready hr h
  · refine ⟨encOutcome p s', by rw [exec_enc he, ← encPacket_eq_of_agree ha, hp], ?_⟩
    obtain ⟨o, e, st, hw⟩ := encOutcome_writes p
    simp [hw, Claim.agree, writes_of_enc he, readReg]
  · refine ⟨decFinish p s', by rw [exec_decoder_of_agree hd hb ha, hdb]; rfl, ?_⟩
    simp [Claim.agree, writes_of_dec (isDec_of_decoder hd), readReg]
  · refine ⟨raiseDec q s', by rw [exec_decoder_of_agree hd hb ha, hdb]; rfl, ?_⟩
    simp [Claim.agree, writes_of_dec (isDec_of_decoder hd), readReg]
  · have hc' : s'.ev.cls = some c := (cls_eq_of_readReg (ha .evClass (by decide))).symm.trans hc
    have hx' : s'.ev.ctx = some x := (bytes_eq_of_readReg (ha .evCtx (by decide))).symm.trans hx
    refine ⟨finish (writePacket (.error (c.setWidth 16) (message c x)) s'), by simp only [exec, execMaperr, hc', hx'], ?_⟩
    simp [Claim.agree, writes, readReg]

/-! ### Reset (R34, R230) -/

theorem readReg_applyReset {r : Reg} (hr : r ≠ .status) (s : State) : readReg r (applyReset s) = none := by
  cases r with
  | status => exact absurd rfl hr
  | _ => rfl

/-- Settles O8: a step applies the reset, whose registers are read one by one. -/
theorem resetLeavesStatusZeroAndTheRestNone : Obligations.ResetLeavesStatusZeroAndTheRestNone :=
  ⟨fun _ _ h => ⟨_, step_of_cons h, rfl, fun _ hr => readReg_applyReset hr _⟩, rfl,
    fun _ hr => readReg_applyReset hr State.reset⟩

theorem inv_applyReset (s : State) : Machine.Inv (applyReset s) :=
  ⟨capacityInv_reset, .inl rfl, fun _ => .inl ⟨rfl, rfl⟩⟩

/-- Settles O45: no byte sequence is held, `STATUS` is 0x00 and no command has been written. -/
theorem resetMeetsTheInvariant : Obligations.ResetMeetsTheInvariant := inv_applyReset State.reset

/-! ### What an action of the host can do (R22, R57) -/

/-- What a host read, or a host write of a register other than `CMD`, can do: it writes neither `CMD` nor `STATUS` nor
`OUT`, records no fault, sets no EV register to NONE, and keeps the capacity (R20, R23). -/
structure HostAccess (s t : State) : Prop where
  cmd : t.cmd = s.cmd
  status : t.status = s.status
  out : t.out = s.out
  fault : t.fault = s.fault
  errorHeld : ErrorHeld s → ErrorHeld t
  capacity : CapacityInv s → CapacityInv t

theorem hostAccess_observe (r : Reg) (s : State) : HostAccess s (observe r s) := by
  unfold observe
  split <;> exact ⟨rfl, rfl, rfl, rfl, id, id⟩

theorem hostAccess_writeIn (s : State) {b : Bytes} (hb : b.length ≤ Config.bufMax) :
    HostAccess s { s with inBuf := some b } :=
  ⟨rfl, rfl, rfl, rfl, id, fun ⟨_, hrest⟩ => ⟨(memory_wf_some b).mpr hb, hrest⟩⟩

/-- A write of PV registers is a host access when the byte sequences it leaves there fit. -/
theorem hostAccess_writePv (s : State) {v : PacketValue} (hv : PvFits s.pv → PvFits v) : HostAccess s { s with pv := v } := by
  refine ⟨rfl, rfl, rfl, rfl, id, fun hcap => ?_⟩
  rw [capacityInv_iff] at hcap ⊢
  obtain ⟨hin, hout, hpv, hctx⟩ := hcap
  exact ⟨hin, hout, hv hpv, hctx⟩

theorem hostAccess_writeEvClass (s : State) (v : BitVec 3) : HostAccess s { s with ev := { s.ev with cls := some v } } :=
  ⟨rfl, rfl, rfl, rfl, fun ⟨_, hreason, hctx⟩ => ⟨Option.some_ne_none v, hreason, hctx⟩, id⟩

theorem hostAccess_writeEvReason (s : State) (v : BitVec 4) : HostAccess s { s with ev := { s.ev with reason := some v } } :=
  ⟨rfl, rfl, rfl, rfl, fun ⟨hcls, _, hctx⟩ => ⟨hcls, Option.some_ne_none v, hctx⟩, id⟩

theorem hostAccess_writeEvCtx (s : State) {b : Bytes} (hb : b.length ≤ Config.bufMax) :
    HostAccess s { s with ev := { s.ev with ctx := some b } } := by
  refine ⟨rfl, rfl, rfl, rfl, fun ⟨hcls, hreason, _⟩ => ⟨hcls, hreason, Option.some_ne_none b⟩, fun hcap => ?_⟩
  rw [capacityInv_iff] at hcap ⊢
  obtain ⟨hin, hout, hpv, -⟩ := hcap
  exact ⟨hin, hout, hpv, (memory_wf_some b).mpr hb⟩

/-- What an action can do when it has a step: start a command, reset the block, or access a register. -/
theorem perform_next_cases {a : Action} {s t : State} (h : perform a s = .next t) :
    (∃ c, startCommand c s = .next t) ∨ t = applyReset s ∨ HostAccess s t := by
  cases a with
  | writeCmd c => exact .inl ⟨c, h⟩
  | reset =>
    cases h
    exact .inr (.inl rfl)
  | read r =>
    cases h
    exact .inr (.inr (hostAccess_observe r s))
  | writeIn b =>
    obtain ⟨hb, rfl⟩ := storeBytes_eq_next_iff.mp h
    exact .inr (.inr (hostAccess_writeIn s hb))
  | writePvOp v =>
    cases h
    exact .inr (.inr (hostAccess_writePv s id))
  | writePvBlock v =>
    cases h
    exact .inr (.inr (hostAccess_writePv s id))
  | writePvEcode v =>
    cases h
    exact .inr (.inr (hostAccess_writePv s id))
  | writePvFname b =>
    obtain ⟨hb, rfl⟩ := storeBytes_eq_next_iff.mp h
    exact .inr (.inr (hostAccess_writePv s fun ⟨_, hm, hp, hg⟩ => ⟨(memory_wf_some b).mpr hb, hm, hp, hg⟩))
  | writePvMode b =>
    obtain ⟨hb, rfl⟩ := storeBytes_eq_next_iff.mp h
    exact .inr (.inr (hostAccess_writePv s fun ⟨hf, _, hp, hg⟩ => ⟨hf, (memory_wf_some b).mpr hb, hp, hg⟩))
  | writePvPayload b =>
    obtain ⟨hb, rfl⟩ := storeBytes_eq_next_iff.mp h
    exact .inr (.inr (hostAccess_writePv s fun ⟨hf, hm, _, hg⟩ => ⟨hf, hm, (memory_wf_some b).mpr hb, hg⟩))
  | writePvMsg b =>
    obtain ⟨hb, rfl⟩ := storeBytes_eq_next_iff.mp h
    exact .inr (.inr (hostAccess_writePv s fun ⟨hf, hm, hp, _⟩ => ⟨hf, hm, hp, (memory_wf_some b).mpr hb⟩))
  | writeEvClass v =>
    cases h
    exact .inr (.inr (hostAccess_writeEvClass s v))
  | writeEvReason v =>
    cases h
    exact .inr (.inr (hostAccess_writeEvReason s v))
  | writeEvCtx b =>
    obtain ⟨hb, rfl⟩ := storeBytes_eq_next_iff.mp h
    exact .inr (.inr (hostAccess_writeEvCtx s hb))

/-- What every action keeps, and the queue does not matter to, every step keeps. -/
theorem step_keeps {P : State → Prop} (hqueue : ∀ s rest, P s → P { s with pending := rest })
    (haction : ∀ a s t, P s → perform a s = .next t → P t) {s t : State} (hs : P s) (h : step s = .next t) : P t := by
  cases hp : s.pending with
  | nil =>
    rw [step_of_nil hp] at h
    cases h
    exact hs
  | cons a rest =>
    rw [step_of_cons hp] at h
    exact haction a _ t (hqueue s rest hs) h

/-! ### The capacity (R23) -/

theorem capacityInv_exec {i : Instr} {s t : State} (hs : CapacityInv s) (h : exec i s = .next t) : CapacityInv t := by
  obtain ⟨-, rfl⟩ | ⟨p, -, -, rfl⟩ | ⟨d, b, p, hd, hb, hdb, rfl⟩ | ⟨_, _, r, -, -, -, -, rfl⟩ | ⟨c, x, -, -, hx, rfl⟩ :=
    exec_next_cases h
  · exact capacityInv_recordUnsetOperand hs
  · exact capacityInv_encOutcome hs p
  · have hin : b.length ≤ Config.bufMax := by
      obtain ⟨hin, -⟩ := hs
      rwa [hb, memory_wf_some] at hin
    exact capacityInv_decFinish hs (pvFits_of_decoder hd hin hdb)
  · exact capacityInv_raiseDec hs r
  · exact capacityInv_maperr hs hx

theorem capacityInv_startCommand {c : Byte} {s t : State} (hs : CapacityInv s) (h : startCommand c s = .next t) :
    CapacityInv t := by
  cases hc : decodeCommand c with
  | none =>
    rw [startCommand_of_none hc] at h
    cases h
    exact hs
  | some i =>
    rw [startCommand_of_some hc] at h
    exact capacityInv_exec (s := { s with cmd := some c }) hs h

theorem capacityInv_perform {a : Action} {s t : State} (hs : CapacityInv s) (h : perform a s = .next t) : CapacityInv t := by
  obtain ⟨c, hc⟩ | rfl | haccess := perform_next_cases h
  · exact capacityInv_startCommand hs hc
  · exact capacityInv_reset
  · exact haccess.capacity hs

theorem storeBytes_of_lt {b : Bytes} (h : Config.bufMax < b.length) (stored : State) :
    storeBytes b stored = .refused .overCapacity := by
  simp [storeBytes, fitsBuffer, h]

/-- Settles O11: every action keeps the capacity, and each of the six longer writes is a refused `storeBytes`. -/
theorem capacityIsKeptAndLongerWritesRefused : Obligations.CapacityIsKeptAndLongerWritesRefused := by
  refine ⟨fun s t => step_keeps (fun _ _ => id) (fun _ _ _ => capacityInv_perform), fun s a b rest hlong hp ha => ?_⟩
  rw [step_of_cons hp]
  simp only [List.mem_cons, List.not_mem_nil, or_false] at ha
  obtain rfl | rfl | rfl | rfl | rfl | rfl := ha <;> exact storeBytes_of_lt hlong _

/-! ### The invariant (R27, R200, R210) -/

/-- What a host access keeps: the capacity, and what `STATUS` says, since an error once held stays held. -/
theorem HostAccess.inv {s t : State} (ha : HostAccess s t) (hs : Machine.Inv s) : Machine.Inv t := by
  obtain ⟨hcap, houtcome, hstatus⟩ := hs
  refine ⟨ha.capacity hcap, ?_, fun hnofault => ?_⟩
  · rw [OutcomeInv, ha.status]
    obtain h | h | h | ⟨h, herror⟩ := houtcome
    · exact .inl h
    · exact .inr (.inl h)
    · exact .inr (.inr (.inl h))
    · exact .inr (.inr (.inr ⟨h, ha.errorHeld herror⟩))
  · rw [StatusInv, ha.status, ha.cmd, ha.out]
    obtain h | h | h | ⟨c, i, hc, hi, hst, hmap, hack, hcls, hreason, hctx, hout⟩ := hstatus (ha.fault.symm.trans hnofault)
    · exact .inl h
    · exact .inr (.inl h)
    · exact .inr (.inr (.inl h))
    · obtain ⟨hcls', hreason', hctx'⟩ := ha.errorHeld ⟨hcls, hreason, hctx⟩
      exact .inr (.inr (.inr ⟨c, i, hc, hi, hst, hmap, hack, hcls', hreason', hctx', hout⟩))

/-- A command that finished, with a packet in `OUT` if it is an ENC, meets the invariant. -/
theorem inv_of_finish {t : State} {c : Byte} {i : Instr} (hcap : CapacityInv t) (hc : t.cmd = some c)
    (hi : decodeCommand c = some i) (hst : t.status = 0x01) (hout : isEnc i = true → t.out ≠ none) : Machine.Inv t :=
  ⟨hcap, .inr (.inl hst), fun _ => .inr (.inr (.inl ⟨c, i, hc, hi, hst, hout⟩))⟩

/-- A command that raised, with the error in EV and no packet in `OUT` if it is an ENC, meets the invariant. -/
theorem inv_of_raise {t : State} {c : Byte} {i : Instr} (hcap : CapacityInv t) (hc : t.cmd = some c)
    (hi : decodeCommand c = some i) (hst : t.status = 0x03) (hmap : i ≠ .maperr) (hack : i ≠ .encAck)
    (herror : ErrorHeld t) (hout : isEnc i = true → t.out = none) : Machine.Inv t := by
  obtain ⟨hcls, hreason, hctx⟩ := herror
  exact ⟨hcap, .inr (.inr (.inr ⟨hst, hcls, hreason, hctx⟩)),
    fun _ => .inr (.inr (.inr ⟨c, i, hc, hi, hst, hmap, hack, hcls, hreason, hctx, hout⟩))⟩

/-- A command whose operands hold values meets the invariant after it, whatever `STATUS` was before: it finished or
raised. -/
theorem inv_exec_of_ready {c : Byte} {i : Instr} {s t : State} (hi : decodeCommand c = some i) (hcmd : s.cmd = some c)
    (hcap : CapacityInv s) (hr : Claim.ready i s) (h : exec i s = .next t) : Machine.Inv t := by
  have hcap' := capacityInv_exec hcap h
  obtain ⟨hkept, -⟩ := exec_keeps_hostFields h
  have hc : t.cmd = some c := hkept.trans hcmd
  obtain he | hd | rfl := isEnc_or_isDec_or_maperr i
  · obtain ⟨-, ⟨hst, hout, -⟩ | ⟨hack, hst, hout, herror⟩⟩ := exec_enc_outcome he hr h
    · exact inv_of_finish hcap' hc hi hst fun _ => hout
    · exact inv_of_raise hcap' hc hi hst (by rintro rfl; cases he) hack herror fun _ => hout
  · have hne : isEnc i ≠ true := by simp [isEnc_of_dec hd]
    obtain ⟨-, ⟨hst, -, -⟩ | ⟨hst, -, herror⟩⟩ := exec_dec_outcome hd hr h
    · exact inv_of_finish hcap' hc hi hst fun he => absurd he hne
    · exact inv_of_raise hcap' hc hi hst (by rintro rfl; cases hd) (by rintro rfl; cases hd) herror fun he => absurd he hne
  · obtain ⟨-, -, hst, -⟩ := exec_maperr_outcome hr h
    exact inv_of_finish hcap' hc hi hst fun he => by cases he

/-- A `CMD` write keeps the invariant: the code is illegal, or a fault is recorded and `STATUS` kept, or the command ran. -/
theorem inv_startCommand {c : Byte} {s t : State} (hs : Machine.Inv s) (h : startCommand c s = .next t) : Machine.Inv t := by
  obtain ⟨hcap, houtcome, -⟩ := hs
  cases hi : decodeCommand c with
  | none =>
    rw [startCommand_of_none hi] at h
    cases h
    exact ⟨hcap, .inr (.inr (.inl rfl)), fun _ => .inr (.inl ⟨c, rfl, hi, rfl⟩)⟩
  | some i =>
    rw [startCommand_of_some hi] at h
    cases ho : operandsReady i { s with cmd := some c } with
    | false =>
      rw [exec_of_not_ready ho] at h
      cases h
      exact ⟨hcap, houtcome, fun hnofault => by cases hnofault⟩
    | true => exact inv_exec_of_ready (s := { s with cmd := some c }) hi rfl hcap ((ready_iff i _).mpr ho) h

theorem inv_perform {a : Action} {s t : State} (hs : Machine.Inv s) (h : perform a s = .next t) : Machine.Inv t := by
  obtain ⟨c, hc⟩ | rfl | haccess := perform_next_cases h
  · exact inv_startCommand hs hc
  · exact inv_applyReset s
  · exact haccess.inv hs

/-- Settles O46: a step performs one action, and each of the three kinds of action keeps the invariant. -/
theorem stepKeepsTheInvariant : Obligations.StepKeepsTheInvariant :=
  fun _ _ => step_keeps (fun _ _ => id) (fun _ _ _ => inv_perform)

/-! ### The fields of `STATUS` (R27) -/

/-- Settles O47: `OutcomeInv` fixes the fields that do not speak of `CMD`, and `StatusInv` DONE and ILLCMD. -/
theorem statusFieldsAreConsistent : Obligations.StatusFieldsAreConsistent := by
  rintro s ⟨-, houtcome, hstatus⟩
  refine ⟨?_, ?_, fun hnofault => ?_, fun hnofault => ?_, fun herr => ?_⟩
  · obtain h | h | h | ⟨h, -⟩ := houtcome <;> rw [h] <;> decide
  · obtain h | h | h | ⟨h, -⟩ := houtcome <;> rw [h] <;> decide
  · obtain ⟨hc, h⟩ | ⟨c, hc, -, h⟩ | ⟨c, i, hc, -, h, -⟩ | ⟨c, i, hc, -, h, -⟩ := hstatus hnofault <;> simp [hc, h]
  · obtain ⟨hc, h⟩ | ⟨c, hc, hi, h⟩ | ⟨c, i, hc, hi, h, -⟩ | ⟨c, i, hc, hi, h, -⟩ := hstatus hnofault
    · simp [hc, h]
    · simp [hc, hi, h]
    · simp [hc, hi, h]
    · simp [hc, hi, h]
  · obtain h | h | h | ⟨-, herror⟩ := houtcome
    · simp [h] at herr
    · simp [h] at herr
    · simp [h] at herr
    · exact herror

end Sys2Proof.Proofs.Registers
end

section
/-! PROOFS. The family 20_memory.md: commands run twice (R57), host reads and writes (R57, R60) and the independence of the
instances (R62). -/

namespace Sys2Proof.Proofs.Memory

open Machine Registers

/-! ### A command run again (R57) -/

/-- A command leaves its operand registers as they were (R29, R82). -/
theorem exec_keeps_operands {i : Instr} {s t : State} (h : exec i s = .next t) : Claim.agree (operands i) s t :=
  fun r hr => (exec_readReg_frame h (operands_not_written i r hr)).symm

/-- What a packet's encoding leaves is overwritten by the same when the packet is encoded again (R127). -/
theorem encOutcome_idem (p : Packet) (s : State) : encOutcome p (encOutcome p s) = encOutcome p s := by
  obtain ⟨o, e, st, hw⟩ := encOutcome_writes p
  simp only [hw]

/-- Settles O43: the operands stand, so the command ends the second time as it did the first, and that ending overwrites
what it wrote with the same values. -/
theorem commandsAreIdempotent : Obligations.CommandsAreIdempotent := by
  intro i s t h
  have hkept := exec_keeps_operands h
  obtain ⟨hunset, rfl⟩ | ⟨p, he, hp, rfl⟩ | ⟨d, b, p, hd, hb, hdb, rfl⟩ | ⟨d, b, r, hd, hb, hdb, -, rfl⟩ |
    ⟨c, x, rfl, hc, hx, rfl⟩ := exec_next_cases h
  · obtain ⟨r, hr, hnone⟩ := (operandsReady_eq_false_iff i s).mp hunset
    exact exec_of_not_ready ((operandsReady_eq_false_iff i _).mpr ⟨r, hr, (hkept r hr).symm.trans hnone⟩)
  · rw [exec_enc he, ← encPacket_eq_of_agree hkept, hp]
    exact congrArg Host.Outcome.next (encOutcome_idem p s)
  · rw [exec_decoder_of_agree hd hb hkept, hdb]
    rfl
  · rw [exec_decoder_of_agree hd hb hkept, hdb]
    rfl
  · simp only [exec, execMaperr, finish_ev, writePacket_ev, hc, hx]
    rfl

/-! ### Instances (R62, R6) -/

theorem systemStep_of_step {k : Nat} {y : System} {s t : State} (hk : y.instances[k]? = some s) (h : step s = .next t) :
    systemStep k y = .next ⟨y.instances.set k t⟩ :=
  systemStep_eq_next_iff.mpr ⟨s, t, hk, h, rfl⟩

/-- Settles O49: each step reads and replaces one state of the list, and replacements at two places commute. -/
theorem instancesAreIndependent : Obligations.InstancesAreIndependent := by
  intro j k y y1 hjk h
  obtain ⟨s, s', hs, hstep, rfl⟩ := systemStep_eq_next_iff.mp h
  have hother : (y.instances.set j s')[k]? = y.instances[k]? := List.getElem?_set_ne hjk
  refine ⟨hother, fun y2 h2 => ?_⟩
  obtain ⟨t, t', ht, hstep', rfl⟩ := systemStep_eq_next_iff.mp h2
  have hfirst : (y.instances.set k t')[j]? = some s := (List.getElem?_set_ne hjk.symm).trans hs
  refine ⟨_, systemStep_of_step (hother.symm.trans ht) hstep', ?_⟩
  rw [systemStep_of_step hfirst hstep, List.set_comm s' t' hjk]

/-! ### Host reads (R57, R60) -/

/-- The host's queue is no register (R20). -/
theorem readReg_setPending (r : Reg) (s : State) (rest : List Action) : readReg r { s with pending := rest } = readReg r s := by
  cases r <;> rfl

theorem observe_pending (r : Reg) (s : State) : (observe r s).pending = s.pending := by
  unfold observe
  split <;> rfl

/-- A host read shows one value: the register's, where it holds one (R22). -/
theorem observe_reads (r : Reg) (s : State) :
    ∃ v, (observe r s).reads = s.reads ++ [⟨r, v⟩] ∧ ∀ w, readReg r s = some w → v = w := by
  cases hr : readReg r s with
  | some v => exact ⟨v, by simp only [observe, hr], fun _ hw => Option.some.inj hw⟩
  | none => exact ⟨freeValue s.stream r s.nfree, by simp only [observe, hr], fun _ hw => nomatch hw⟩

/-- Settles O9: a step performs the read, which adds one observation and leaves every register. -/
theorem hostReadChangesNoRegister : Obligations.HostReadChangesNoRegister := by
  intro s r rest hp
  obtain ⟨v, hreads, hshown⟩ := observe_reads r { s with pending := rest }
  refine ⟨_, v, step_of_cons hp, observe_pending r _, fun q => ?_, hreads, fun w hw => hshown w ?_⟩
  · rw [readReg_observe, readReg_setPending]
  · rw [readReg_setPending, hw]

/-! ### Host writes (R22, R57) -/

/-- Settles O10: a step performs the write, which stores the value; a byte sequence is stored since it fits (R23). -/
theorem hostWriteOnlyStoresTheValue : Obligations.HostWriteOnlyStoresTheValue := by
  intro s rest b v c n
  refine ⟨step_of_cons, step_of_cons, step_of_cons, step_of_cons, step_of_cons, fun hb => ?_⟩
  have hstores (stored : State) : storeBytes b stored = .next stored := storeBytes_eq_next_iff.mpr ⟨hb, rfl⟩
  refine ⟨?_, ?_, ?_, ?_, ?_, ?_⟩ <;> exact fun hp => (step_of_cons hp).trans (hstores _)

end Sys2Proof.Proofs.Memory
end

section
/-! PROOFS. The family 30_encoding.md: decode against encode (R75, R80, R81), the command a `CMD` write starts (R80), the
illegal codes (R83), and the row that DEC runs (R75). -/

namespace Sys2Proof.Proofs.Encoding

open Machine Registers

/-! ### Decode against encode (R75, R80) -/

/-- The word of an instruction, in the instruction's own space, is read back whatever follows it. -/
theorem decode_encode (i : Instr) (rest : Bytes) : decode i.space (encode i ++ rest) = .ok (i, rest) := by
  cases i with
  | encRrq => exact Laws.EncodeDecode.encRrq rest
  | encWrq => exact Laws.EncodeDecode.encWrq rest
  | encData => exact Laws.EncodeDecode.encData rest
  | encAck => exact Laws.EncodeDecode.encAck rest
  | encError => exact Laws.EncodeDecode.encError rest
  | dec => exact Laws.EncodeDecode.dec rest
  | maperr => exact Laws.EncodeDecode.maperr rest
  | wireRrq => exact Laws.EncodeDecode.wireRrq rest
  | wireWrq => exact Laws.EncodeDecode.wireWrq rest
  | wireData => exact Laws.EncodeDecode.wireData rest
  | wireAck => exact Laws.EncodeDecode.wireAck rest
  | wireError => exact Laws.EncodeDecode.wireError rest

/-- Only the byte at the head is read as a command; what follows is left. -/
theorem decode_command_cons_eq_ok_iff {c : Byte} {b rest : Bytes} {i : Instr} :
    decode .command (c :: b) = .ok (i, rest) ↔ decodeCommand c = some i ∧ rest = b := by
  simp only [decode]
  cases decodeCommand c <;> simp [eq_comm]

/-- A command decodes only from its own code (R80). -/
theorem eq_encode_of_decode_command {b rest : Bytes} {i : Instr} (h : decode .command b = .ok (i, rest)) :
    i.space = .command ∧ b = encode i ++ rest := by
  cases b with
  | nil => cases h
  | cons c b =>
    obtain ⟨hc, rfl⟩ := decode_command_cons_eq_ok_iff.mp h
    obtain ⟨hspace, hword⟩ := (decodeCommand_eq_some_iff c i).mp hc
    exact ⟨hspace, by rw [hword]; rfl⟩

theorem space_variant_instr (v : Variant) : v.instr.space = .wire := by cases v <;> rfl

/-- A wire row's word is its variant's opcode, big-endian (R70, R75). -/
theorem encode_variant_instr (v : Variant) : encode v.instr = be16 v.opcode := by cases v <;> rfl

/-- A wire row decodes only from its own opcode, all 16 bits of it (R75). -/
theorem eq_encode_of_decode_wire {b rest : Bytes} {i : Instr} (h : decode .wire b = .ok (i, rest)) :
    i.space = .wire ∧ b = encode i ++ rest := by
  obtain ⟨op, v, hop, hv, rfl, rfl⟩ := decode_wire_eq_ok_iff.mp h
  obtain rfl := (decodeOpcode_eq_some_iff op v).mp hv
  obtain ⟨-, hsplit⟩ := rd16_splits hop
  exact ⟨space_variant_instr v, by rw [encode_variant_instr]; exact hsplit⟩

/-- Settles O2: every word is read back, and in each space nothing else decodes to its instruction. -/
theorem decodeReadsExactlyTheEncodings : Obligations.DecodeReadsExactlyTheEncodings := by
  intro sp b rest i
  constructor
  · intro h
    cases sp with
    | command =>
      obtain ⟨hspace, hb⟩ := eq_encode_of_decode_command h
      exact ⟨hspace.symm, hb⟩
    | wire =>
      obtain ⟨hspace, hb⟩ := eq_encode_of_decode_wire h
      exact ⟨hspace.symm, hb⟩
  · rintro ⟨rfl, rfl⟩
    exact decode_encode i rest

/-! ### The row that DEC runs (R75) -/

theorem decoderOf_variant_instr (v : Variant) : decoderOf v.instr = some (decVariant Config.errDecodeMax v) := by
  cases v <;> rfl

/-- DEC's dispatcher runs the decoder of the variant that the opcode selects, and that decoder is the variant's row. -/
theorem exec_dec_eq_exec_row {s : State} {b rest : Bytes} {i : Instr} (hb : s.inBuf = some b)
    (hi : decode .wire b = .ok (i, rest)) : exec .dec s = exec i s := by
  obtain ⟨op, v, hop, hv, rfl, -⟩ := decode_wire_eq_ok_iff.mp hi
  calc exec .dec s
      = deliver (decodePacket Config.errDecodeMax b) s := runDecoder_of_some hb
    _ = deliver (decVariant Config.errDecodeMax v b) s := by rw [decodePacket_of_opcode hop hv]
    _ = exec v.instr s := by rw [exec_of_decoder (decoderOf_variant_instr v), runDecoder_of_some hb]

/-- A packet that begins with a wire row's word runs that row. -/
theorem exec_dec_of_word {s : State} {rest : Bytes} {i : Instr} (hspace : i.space = .wire)
    (hb : s.inBuf = some (encode i ++ rest)) : exec .dec s = exec i s :=
  exec_dec_eq_exec_row hb (hspace ▸ decode_encode i rest)

/-- Settles O5: the dispatcher selects the row, and each of the five opcodes is the word of its row. -/
theorem decRunsTheRowOfTheOpcode : Obligations.DecRunsTheRowOfTheOpcode := by
  refine ⟨fun _ _ _ _ => exec_dec_eq_exec_row, fun s op rest hb => ⟨?_, ?_, ?_, ?_, ?_⟩⟩ <;> rintro rfl
  · exact exec_dec_of_word (i := .wireRrq) rfl hb
  · exact exec_dec_of_word (i := .wireWrq) rfl hb
  · exact exec_dec_of_word (i := .wireData) rfl hb
  · exact exec_dec_of_word (i := .wireAck) rfl hb
  · exact exec_dec_of_word (i := .wireError) rfl hb

/-! ### The command that a `CMD` write starts (R80, R83) -/

/-- A `CMD` write runs the command its code names, `CMD` holding the code, in the same step. -/
theorem step_of_legal_command {s : State} {c : Byte} {rest : List Action} {i : Instr} (h : s.pending = .writeCmd c :: rest)
    (hc : decodeCommand c = some i) : step s = exec i { s with pending := rest, cmd := some c } :=
  (step_of_cons h).trans (startCommand_of_some hc _)

/-- Settles O4: the code that decodes is the one that starts its command, and R80's seven codes decode to their rows. -/
theorem stepRunsTheDecodedCommand : Obligations.StepRunsTheDecodedCommand := by
  intro s c rest h
  constructor
  · intro i hi
    obtain ⟨hc, -⟩ := decode_command_eq_ok_iff.mp hi
    exact step_of_legal_command h hc
  · refine ⟨?_, ?_, ?_, ?_, ?_, ?_, ?_⟩ <;> rintro rfl <;> exact step_of_legal_command h rfl

/-- Settles O7: the codes listed are those that name no command. -/
theorem illegalCommandSetsOnlyStatus : Obligations.IllegalCommandSetsOnlyStatus :=
  fun _ c _ h hc => step_of_illegal_command h ((decodeCommand_eq_none_iff c).mpr hc)

end Sys2Proof.Proofs.Encoding
end

section
/-! PROOFS. The family 40_field_primitives.md: the 16-bit fields (R100, R101) and the string fields (R103). -/

namespace Sys2Proof.Proofs.FieldPrimitives

open Machine

/-! ### 16-bit fields (R100, R101) -/

/-- R100: the byte `be16` puts first is the number of whole 256s. -/
theorem toNat_high_byte (v : Half) : (v.extractLsb' 8 8).toNat = v.toNat / 256 := by
  have hv := v.isLt
  simp only [BitVec.extractLsb'_toNat, Nat.shiftRight_eq_div_pow]
  omega

/-- R100: the byte `be16` puts second is the remainder. -/
theorem toNat_low_byte (v : Half) : (v.extractLsb' 0 8).toNat = v.toNat % 256 := by
  rw [BitVec.extractLsb'_toNat, Nat.shiftRight_zero]

/-- Two bytes read as one big-endian number fit a 16-bit field, so that `rd16` loses nothing of them. -/
theorem toNat_ofNat_byte_pair (h l : Byte) :
    (BitVec.ofNat 16 (h.toNat * 256 + l.toNat)).toNat = h.toNat * 256 + l.toNat := by
  have hh := h.isLt
  have hl := l.isLt
  rw [BitVec.toNat_ofNat, Nat.mod_eq_of_lt (by omega)]

/-- Settles O13: the two bytes written are quotient and remainder by 256, and the pair read fits the field. -/
theorem sixteenBitFieldsAreBigEndian : Obligations.SixteenBitFieldsAreBigEndian := by
  constructor
  · exact fun v => ⟨_, _, rfl, toNat_high_byte v, toNat_low_byte v⟩
  · intro b i h l hfirst hsecond
    have hread := rd16_of_bytes hfirst hsecond
    exact ⟨_, hread, toNat_ofNat_byte_pair h l, rd16_toNat hread⟩

/-! ### String fields (R103) -/

/-- R9: a slice that ends inside the bytes is as long as its bounds are apart. -/
theorem length_slice {b : Bytes} {i k : Nat} (hk : k ≤ b.length) : (slice b i k).length = k - i := by
  rw [slice, List.length_drop, List.length_take_of_le hk]

/-- R9: the bytes of `B[i..k)` are those of `B` from `i` on. -/
theorem getElem?_slice (b : Bytes) {i k n : Nat} (hn : n < k - i) : (slice b i k)[n]? = b[i + n]? := by
  rw [slice, List.getElem?_drop, List.getElem?_take_of_lt (by omega)]

/-- Settles O16: the first terminator is what `find0` finds, and it stands inside the bytes, so that the slice before it
is whole. -/
theorem getstrStopsAtTheFirstTerminator : Obligations.GetstrStopsAtTheFirstTerminator := by
  constructor
  · exact fun b i => getstr_eq_none_iff
  · intro b i k hfirst
    have ⟨_, hzero, _⟩ := hfirst
    obtain ⟨hk, -⟩ := List.getElem?_eq_some_iff.mp hzero
    exact ⟨find0_eq_some_iff.mpr hfirst, getstr_eq_some_iff.mpr ⟨k, hfirst, rfl, rfl⟩, length_slice hk.le,
      fun _ => getElem?_slice b⟩

end Sys2Proof.Proofs.FieldPrimitives
end

section
/-! PROOFS. The family 41_encode.md: what an ENC command leaves for any packet value in PV, fitting or not (R120, R126, R128),
and the commands one by one (R121, R122, R123, R125). -/

namespace Sys2Proof.Proofs.Encode

open Machine

/-! ### Unset operands (R210) -/

/-- A command with two operand registers faults as soon as one of them holds NONE. -/
theorem exec_of_unset_pair {i : Instr} {r r' : Reg} {s : State} (hops : operands i = [r, r'])
    (h : readReg r s = none ∨ readReg r' s = none) : exec i s = .next (Claim.faulted s) :=
  exec_of_not_ready ((operandsReady_eq_false_iff i s).mpr (by simpa [hops] using h))

/-! ### The packet value in PV and its bytes (R120) -/

/-- R71 to R74: the primitives `be16` and `putstr` build the layout field by field. -/
theorem packetBytes_eq_layout (p : Packet) : packetBytes p = Claim.layout p := by
  cases p with
  | rrq f m | wrq f m | error c g => simp [packetBytes, Claim.layout, putstr, be16]
  | data b q | ack b => rfl

theorem isEnc_encOf (p : Packet) : isEnc (Claim.encOf p) = true := by cases p <;> rfl

/-- The ENC command of a variant reads the packet value back from the registers of its fields. -/
theorem encPacket_encOf {p : Packet} {s : State} (held : Claim.fieldsHeld p s) : encPacket (Claim.encOf p) s = some p := by
  cases p with
  | rrq f m | wrq f m | data b q | error c g =>
    obtain ⟨hfirst, hsecond⟩ := held
    simp [Claim.encOf, encPacket, hfirst, hsecond]
  | ack b => exact congrArg (Option.map Packet.ack) held

theorem exec_encOf {p : Packet} {s : State} (held : Claim.fieldsHeld p s) :
    exec (Claim.encOf p) s = .next (encOutcome p s) := by
  rw [exec_enc (isEnc_encOf p), encPacket_encOf held]

/-! ### The three ways an ENC command ends (R120, R125, R126) -/

/-- Only an Error's code is checked before `ENC_FINISH`. -/
theorem encOutcome_of_code_le {p : Packet} (range : ∀ c g, p = .error c g → c.toNat ≤ 7) (s : State) :
    encOutcome p s = encFinish (packetBytes p) s := by
  cases p with
  | error c g => exact if_neg (Nat.not_lt.mpr (range c g rfl))
  | _ => rfl

/-- R125: the range check precedes the capacity check, so the length of the message does not matter. -/
theorem exec_encError_of_code_gt {c : Half} {g : Bytes} {s : State} (held : Claim.fieldsHeld (.error c g) s)
    (hc : 8 ≤ c.toNat) : exec .encError s = .next (Claim.encFails s 13 (reasonText .encEcodeRange)) :=
  (exec_encOf held).trans (congrArg Host.Outcome.next (if_pos hc))

/-- R120, R128: a packet that fits is emitted whatever its strings hold. -/
theorem exec_encOf_of_fits {p : Packet} {s : State} (held : Claim.fieldsHeld p s)
    (range : ∀ c g, p = .error c g → c.toNat ≤ 7) (fits : p.encodedLength ≤ Config.bufMax) :
    exec (Claim.encOf p) s = .next (Claim.encodes s (Claim.layout p)) := by
  rw [← packetBytes_length] at fits
  rw [exec_encOf held, encOutcome_of_code_le range, encFinish_of_le fits, packetBytes_eq_layout]
  rfl

/-- R126: a packet longer than `BUF_MAX` is a short write. -/
theorem exec_encOf_of_too_long {p : Packet} {s : State} (held : Claim.fieldsHeld p s)
    (range : ∀ c g, p = .error c g → c.toNat ≤ 7) (long : Config.bufMax < p.encodedLength) :
    exec (Claim.encOf p) s = .next (Claim.encFails s 14 (reasonText .encShortWrite)) := by
  rw [← packetBytes_length] at long
  rw [exec_encOf held, encOutcome_of_code_le range, encFinish_of_lt long]
  rfl

/-! ### The commands (R121, R122, R123, R125, R128) -/

/-- Settles O23: no check but the range and the capacity stands between the packet value and `OUT`. -/
theorem encodeDoesNotValidate : Obligations.EncodeDoesNotValidate :=
  fun _ _ held fits range => exec_encOf_of_fits held range fits

/-- Settles O18: the bytes of a ReadRequest are `00 01` and the two strings, `BUF_MAX` alone deciding whether they are emitted (R121). -/
theorem encRrqEncodesAReadRequest : Obligations.EncRrqEncodesAReadRequest := by
  refine fun s => ⟨fun h => exec_of_unset_pair (i := .encRrq) rfl (by simpa [readReg] using h), fun f m hf hm => ?_⟩
  have held : Claim.fieldsHeld (.rrq f m) s := ⟨hf, hm⟩
  exact ⟨exec_encOf_of_fits held nofun, exec_encOf_of_too_long held nofun⟩

/-- Settles O19: a WriteRequest differs from a ReadRequest in its opcode and command only (R122). -/
theorem encWrqEncodesAWriteRequest : Obligations.EncWrqEncodesAWriteRequest := by
  refine fun s => ⟨fun h => exec_of_unset_pair (i := .encWrq) rfl (by simpa [readReg] using h), fun f m hf hm => ?_⟩
  have held : Claim.fieldsHeld (.wrq f m) s := ⟨hf, hm⟩
  exact ⟨exec_encOf_of_fits held nofun, exec_encOf_of_too_long held nofun⟩

/-- Settles O20: a Data packet carries its payload as it stands, with no terminator to count (R123). -/
theorem encDataEncodesADataPacket : Obligations.EncDataEncodesADataPacket := by
  refine fun s => ⟨fun h => exec_of_unset_pair (i := .encData) rfl (by simpa [readReg] using h), fun n p hn hp => ?_⟩
  have held : Claim.fieldsHeld (.data n p) s := ⟨hn, hp⟩
  exact ⟨exec_encOf_of_fits held nofun, exec_encOf_of_too_long held nofun⟩

/-- Settles O22: a code of 8 or more raises before the length is looked at; a code up to 7 leaves the length to decide. -/
theorem encErrorEncodesAnErrorPacket : Obligations.EncErrorEncodesAnErrorPacket := by
  refine fun s => ⟨fun h => exec_of_unset_pair (i := .encError) rfl (by simpa [readReg] using h), fun c g hc hg => ?_⟩
  have held : Claim.fieldsHeld (.error c g) s := ⟨hc, hg⟩
  have range (hle : c.toNat ≤ 7) : ∀ c' g', Packet.error c g = .error c' g' → c'.toNat ≤ 7 := by
    rintro _ _ ⟨⟩
    exact hle
  exact ⟨exec_encError_of_code_gt held, fun hle => exec_encOf_of_fits held (range hle),
    fun hle => exec_encOf_of_too_long held (range hle)⟩

end Sys2Proof.Proofs.Encode
end

section
/-! PROOFS. The family 42_decode.md: what DEC accepts (R140), the dispatcher's own raises (R141, R142), the variant decoders
(R143, R146 to R148), and DEC on the packets of each variant, which is the variant's row. -/

namespace Sys2Proof.Proofs.Decode

open Machine Registers Encoding FieldPrimitives

/-! ### How a decoder's answer ends its instruction (R29, R30, R140) -/

/-- Every reason of the decode family has class 4 (R203). -/
theorem kindCode_of_isDecodeReason {r : Reason} (h : isDecodeReason r = true) : kindCode (reasonKind r) = 4 := by
  cases r with
  | encEcodeRange | encShortWrite => cases h
  | _ => rfl

theorem raiseDec_eq_decFails {r : Reason} (h : isDecodeReason r = true) (s : State) :
    raiseDec r s = Claim.decFails s (reasonCode r) (reasonText r) := by
  rw [Claim.decFails, ← kindCode_of_isDecodeReason h]
  rfl

theorem exec_of_decoder_packet {i : Instr} {d : Bytes → Decoded} {s : State} {b : Bytes} {p : Packet}
    (hd : decoderOf i = some d) (hb : s.inBuf = some b) (h : d b = .packet p) :
    exec i s = .next (Claim.decodes s (Claim.pvOf p)) := by
  rw [exec_of_decoder hd, runDecoder_of_some hb, h, ← packetRegs_eq_pvOf]
  rfl

theorem exec_of_decoder_raised {i : Instr} {d : Bytes → Decoded} {s : State} {b : Bytes} {r : Reason}
    (hd : decoderOf i = some d) (hb : s.inBuf = some b) (h : d b = .raised r) :
    exec i s = .next (Claim.decFails s (reasonCode r) (reasonText r)) := by
  rw [exec_of_decoder hd, runDecoder_of_some hb, h, ← raiseDec_eq_decFails (decoderOf_raised hd h)]
  rfl

theorem decodeOpcode_opcode (v : Variant) : decodeOpcode v.opcode = some v := (decodeOpcode_eq_some_iff _ v).mpr rfl

/-- R24: `PV.OP` names the variant. -/
theorem pvOf_op (p : Packet) : (Claim.pvOf p).op = some p.variant.opcode := by cases p <;> rfl

theorem variant_eq_of_pvOf_eq {p q : Packet} (h : Claim.pvOf p = Claim.pvOf q) : p.variant = q.variant := by
  have hop : p.variant.opcode = q.variant.opcode := by
    rw [← Option.some_inj, ← pvOf_op, ← pvOf_op, h]
  rw [← Option.some_inj, ← decodeOpcode_opcode, hop, decodeOpcode_opcode]

/-- PV tells packet values apart: `PV.OP` the variants, the other registers the fields (R24). -/
theorem pvOf_injective {p q : Packet} (h : Claim.pvOf p = Claim.pvOf q) : p = q := by
  have hvariant := variant_eq_of_pvOf_eq h
  cases p with
  | rrq f m | wrq f m | data n pay | ack n | error c g =>
    cases q <;> cases hvariant
    cases h
    rfl

/-- DEC's end state determines its decoder's answer: a raise is told from a finish by `STATUS`, a packet value by PV. -/
theorem exec_dec_eq_decodes_iff {s : State} {b : Bytes} {p : Packet} (hb : s.inBuf = some b) :
    exec .dec s = .next (Claim.decodes s (Claim.pvOf p)) ↔ decodePacket Config.errDecodeMax b = .packet p := by
  refine ⟨fun hend => ?_, exec_of_decoder_packet rfl hb⟩
  cases h : decodePacket Config.errDecodeMax b with
  | packet q =>
    rw [exec_of_decoder_packet rfl hb h] at hend
    injection hend with hstate
    rw [pvOf_injective (congrArg State.pv hstate)]
  | raised r =>
    rw [exec_of_decoder_raised rfl hb h] at hend
    injection hend with hstate
    exact absurd (congrArg State.status hstate) (by simp [Claim.decFails, Claim.decodes])
  | outOfBounds => exact absurd h (decodePacket_ne_outOfBounds _ b)

/-! ### The dispatcher (R140 to R142) -/

theorem decodePacket_of_length_lt_two (maxCode : Nat) {b : Bytes} (h : b.length < 2) :
    decodePacket maxCode b = .raised .noData := if_pos h

theorem rd16_be16_append (op : Half) (rest : Bytes) : rd16 (be16 op ++ rest) 0 = some op := rd16_append_be16 [] rest op

theorem decodePacket_of_unknown (maxCode : Nat) {op : Half} (h : decodeOpcode op = none) (rest : Bytes) :
    decodePacket maxCode (be16 op ++ rest) = .raised (.unknownOpcode op) := by
  have hlen : ¬ (be16 op ++ rest).length < 2 := by simp [be16_length]; omega
  simp only [decodePacket, if_neg hlen, rd16_be16_append, h]

theorem decodePacket_of_word (maxCode : Nat) (v : Variant) (rest : Bytes) :
    decodePacket maxCode (be16 v.opcode ++ rest) = decVariant maxCode v (be16 v.opcode ++ rest) :=
  decodePacket_of_opcode (rd16_be16_append _ rest) (decodeOpcode_opcode v)

/-! ### What DEC accepts (R71 to R74, R79, R140, R143 to R148) -/

/-- R70: every packet begins with its variant's opcode. -/
theorem packetBytes_begins (p : Packet) : ∃ body, packetBytes p = be16 p.variant.opcode ++ body := by
  cases p with
  | rrq f m | wrq f m | data n q | error c g => exact ⟨_, List.append_assoc _ _ _⟩
  | ack n => exact ⟨_, rfl⟩

/-- On bytes that begin with its opcode, a variant's decoder answers exactly the variant's packets whose fields are
acceptable and whose layout the bytes are, any tail after it where the format ignores one. -/
theorem decVariant_eq_packet_iff {maxCode : Nat} {v : Variant} {rest : Bytes} {p : Packet} :
    decVariant maxCode v (be16 v.opcode ++ rest) = .packet p ↔
      p.variant = v ∧ Claim.accepted maxCode p ∧
        ∃ tail, be16 v.opcode ++ rest = packetBytes p ++ tail ∧ (¬ Claim.ignoresTail p → tail = []) := by
  have hlen : 2 ≤ (be16 v.opcode ++ rest).length := by simp [be16_length]
  cases v with
  | rrq | wrq =>
    refine decReq_eq_packet_iff.trans ⟨?_, ?_⟩
    · rintro ⟨f, m, tail, rfl, hf, hm, hf0, hm0, -, he⟩
      exact ⟨rfl, ⟨hf, hf0, hm, hm0⟩, tail, he, fun h => absurd trivial h⟩
    · rintro ⟨hv, hacc, tail, he, -⟩
      cases p <;> cases hv
      obtain ⟨hf, hf0, hm, hm0⟩ := hacc
      exact ⟨_, _, tail, rfl, hf, hm, hf0, hm0, hlen, he⟩
  | data =>
    refine decData_eq_packet_iff.trans ⟨?_, ?_⟩
    · rintro ⟨n, q, rfl, -, he⟩
      exact ⟨rfl, trivial, [], he.trans (List.append_nil _).symm, fun _ => rfl⟩
    · rintro ⟨hv, -, tail, he, hstrict⟩
      cases p <;> cases hv
      obtain rfl := hstrict id
      exact ⟨_, _, rfl, hlen, he.trans (List.append_nil _)⟩
  | ack =>
    refine decAck_eq_packet_iff.trans ⟨?_, ?_⟩
    · rintro ⟨n, rfl, -, he⟩
      exact ⟨rfl, trivial, [], he.trans (List.append_nil _).symm, fun _ => rfl⟩
    · rintro ⟨hv, -, tail, he, hstrict⟩
      cases p <;> cases hv
      obtain rfl := hstrict id
      exact ⟨_, rfl, hlen, he.trans (List.append_nil _)⟩
  | error =>
    refine decError_eq_packet_iff.trans ⟨?_, ?_⟩
    · rintro ⟨c, g, tail, rfl, hc, hg, -, he⟩
      exact ⟨rfl, ⟨hc, hg⟩, tail, he, fun h => absurd trivial h⟩
    · rintro ⟨hv, hacc, tail, he, -⟩
      cases p <;> cases hv
      obtain ⟨hc, hg⟩ := hacc
      exact ⟨_, _, tail, rfl, hc, hg, hlen, he⟩

/-- The decoder answers a packet value exactly on its layout, for any largest accepted ErrorCode. -/
theorem decodePacket_eq_packet_iff {maxCode : Nat} {b : Bytes} {p : Packet} :
    decodePacket maxCode b = .packet p ↔
      Claim.accepted maxCode p ∧ ∃ tail, b = Claim.layout p ++ tail ∧ (¬ Claim.ignoresTail p → tail = []) := by
  rw [← Encode.packetBytes_eq_layout]
  constructor
  · intro h
    obtain ⟨-, hraise⟩ | ⟨op, -, -, hraise⟩ | ⟨op, v, hop, hv, hrow⟩ := decodePacket_cases maxCode b
    · cases hraise.symm.trans h
    · cases hraise.symm.trans h
    · obtain rfl := (decodeOpcode_eq_some_iff op v).mp hv
      obtain ⟨-, hsplit⟩ := rd16_splits hop
      have hword : b = be16 v.opcode ++ b.drop 2 := hsplit
      rw [hrow, hword] at h
      obtain ⟨-, hacc, htail⟩ := decVariant_eq_packet_iff.mp h
      exact ⟨hacc, by rwa [hword]⟩
  · rintro ⟨hacc, tail, rfl, hstrict⟩
    obtain ⟨body, hbody⟩ := packetBytes_begins p
    have hword : packetBytes p ++ tail = be16 p.variant.opcode ++ (body ++ tail) := by rw [hbody, List.append_assoc]
    rw [hword, decodePacket_of_word]
    exact decVariant_eq_packet_iff.mpr ⟨rfl, hacc, tail, hword.symm, hstrict⟩

/-- Settles O30: DEC's end state and its decoder's answer say the same, and the decoder answers on the layouts alone. -/
theorem decAcceptsExactlyTheLayouts : Obligations.DecAcceptsExactlyTheLayouts :=
  fun _ _ _ hb => (exec_dec_eq_decodes_iff hb).trans decodePacket_eq_packet_iff

/-- Settles O25: an opcode outside 1..5 selects no variant, and the dispatcher looks no further. -/
theorem decOfAnUnknownOpcode : Obligations.DecOfAnUnknownOpcode :=
  fun _ op rest hb hop =>
    exec_of_decoder_raised rfl hb (decodePacket_of_unknown _ ((decodeOpcode_eq_none_iff op).mpr hop) rest)

/-! ### The request decoder (R143) -/

theorem getstr_of_firstZeroFrom {b : Bytes} {i k : Nat} (h : Claim.firstZeroFrom b i k) :
    getstr b i = some (slice b i k, k + 1) := getstr_eq_some_iff.mpr ⟨k, h, rfl, rfl⟩

theorem firstZeroFrom_self {b : Bytes} {i : Nat} (h : b[i]? = some 0x00) : Claim.firstZeroFrom b i i :=
  ⟨le_rfl, h, fun _ hle hlt => absurd hle (Nat.not_le.mpr hlt)⟩

/-- R16: the string before the first terminator is blank exactly when the terminator stands where it begins. -/
theorem length_slice_eq_zero_iff {b : Bytes} {i k : Nat} (h : Claim.firstZeroFrom b i k) :
    (slice b i k).length = 0 ↔ k = i := by
  obtain ⟨hik, hzero, -⟩ := h
  obtain ⟨hk, -⟩ := List.getElem?_eq_some_iff.mp hzero
  rw [length_slice hk.le]
  omega

section
variable (mk : Bytes → Bytes → Packet) {b : Bytes}

theorem decReq_of_short (h : b.length < 6) : decReq mk b = .raised .reqShort := if_pos h

theorem decReq_of_fname_noterm (hlen : 6 ≤ b.length) (h : Claim.noZeroFrom b 2) : decReq mk b = .raised .fnameNoterm := by
  simp only [decReq, if_neg (Nat.not_lt.mpr hlen), getstr_eq_none_iff.mpr h]

theorem decReq_of_fname_blank (hlen : 6 ≤ b.length) (h : b[2]? = some 0x00) : decReq mk b = .raised .fnameBlank := by
  have hfirst := firstZeroFrom_self h
  simp only [decReq, if_neg (Nat.not_lt.mpr hlen), getstr_of_firstZeroFrom hfirst,
    if_pos ((length_slice_eq_zero_iff hfirst).mpr rfl)]

variable {k : Nat} (hlen : 6 ≤ b.length) (hk : 2 < k) (hfname : Claim.firstZeroFrom b 2 k)
include hlen hk hfname

/-- Past the three checks on the filename, the mode decides. -/
theorem decReq_of_mode_noterm (h : Claim.noZeroFrom b (k + 1)) : decReq mk b = .raised .modeNoterm := by
  have hne : ¬ (slice b 2 k).length = 0 := fun h0 => hk.ne' ((length_slice_eq_zero_iff hfname).mp h0)
  simp only [decReq, if_neg (Nat.not_lt.mpr hlen), getstr_of_firstZeroFrom hfname, if_neg hne, getstr_eq_none_iff.mpr h]

theorem decReq_of_mode {l : Nat} (h : Claim.firstZeroFrom b (k + 1) l) :
    decReq mk b = if l = k + 1 then .raised .modeBlank else .packet (mk (slice b 2 k) (slice b (k + 1) l)) := by
  have hne : ¬ (slice b 2 k).length = 0 := fun h0 => hk.ne' ((length_slice_eq_zero_iff hfname).mp h0)
  simp only [decReq, if_neg (Nat.not_lt.mpr hlen), getstr_of_firstZeroFrom hfname, if_neg hne, getstr_of_firstZeroFrom h,
    length_slice_eq_zero_iff h]

end

/-- R144, R145: the two request rows are `DEC_REQ`, each with its own packet value. -/
theorem decoderOf_request {i : Instr} {op : Half} (h : (i = .wireRrq ∧ op = 1) ∨ (i = .wireWrq ∧ op = 2)) :
    ∃ mk, decoderOf i = some (decReq mk) ∧ ∀ f m, Claim.pvOf (mk f m) = Claim.requestPv op f m := by
  obtain ⟨rfl, rfl⟩ | ⟨rfl, rfl⟩ := h
  · exact ⟨.rrq, rfl, fun _ _ => rfl⟩
  · exact ⟨.wrq, rfl, fun _ _ => rfl⟩

/-- Settles O26: each of the five checks is reached when the ones before it pass, and only the packet value differs
between the rows. -/
theorem requestDecoderChecksInOrder : Obligations.RequestDecoderChecksInOrder := by
  intro i op hi s b hb
  obtain ⟨mk, hd, hpv⟩ := decoderOf_request hi
  refine ⟨fun h => exec_of_decoder_raised hd hb (decReq_of_short mk h),
    fun hlen h => exec_of_decoder_raised hd hb (decReq_of_fname_noterm mk hlen h),
    fun hlen h => exec_of_decoder_raised hd hb (decReq_of_fname_blank mk hlen h), fun k hlen hk hfname => ⟨?_, ?_, ?_⟩⟩
  · exact fun h => exec_of_decoder_raised hd hb (decReq_of_mode_noterm mk hlen hk hfname h)
  · intro h
    exact exec_of_decoder_raised hd hb ((decReq_of_mode mk hlen hk hfname (firstZeroFrom_self h)).trans (if_pos rfl))
  · intro l hl h
    rw [← hpv]
    exact exec_of_decoder_packet hd hb ((decReq_of_mode mk hlen hk hfname h).trans (if_neg hl.ne'))

/-! ### The Data, Ack and Error decoders (R146 to R148) -/

/-- Settles O27: four bytes are the opcode and the block number, and what follows them is the payload. -/
theorem dataDecoderTakesTheRestAsPayload : Obligations.DataDecoderTakesTheRestAsPayload := by
  intro s b hb
  constructor
  · exact fun hlen => exec_of_decoder_raised (i := .wireData) (r := .dataShort) rfl hb (if_pos hlen)
  · rintro o1 o2 n p rfl
    exact exec_of_decoder_packet (i := .wireData) rfl hb
      (decData_eq_packet_iff.mpr ⟨n, p, rfl, by simp, rfl⟩)

/-- Settles O28: with the opcode and the block number the four bytes are used up. -/
theorem ackDecoderIsStrict : Obligations.AckDecoderIsStrict := by
  intro s b hb
  constructor
  · exact fun hlen => exec_of_decoder_raised (i := .wireAck) (r := .ackLen) rfl hb (if_pos hlen)
  · rintro o1 o2 n rfl
    exact exec_of_decoder_packet (i := .wireAck) rfl hb (decAck_eq_packet_iff.mpr ⟨n, rfl, by simp, rfl⟩)

section
variable {maxCode : Nat} {c : Half} {body : Bytes}

/-- R148: the code stands after the opcode word, whatever that word is. -/
theorem rd16_code (o1 o2 : Byte) : rd16 ([o1, o2] ++ be16 c ++ body) 2 = some c := rd16_append_be16 [o1, o2] body c

theorem decError_of_code_gt (o1 o2 : Byte) (hbody : 1 ≤ body.length) (hc : maxCode < c.toNat) :
    decError maxCode ([o1, o2] ++ be16 c ++ body) = .raised (.errCodeRange c) := by
  have hlen : ¬ ([o1, o2] ++ be16 c ++ body).length < 5 := by simp [be16_length]; omega
  simp only [decError, if_neg hlen, rd16_code, if_pos hc]

/-- The code stands in the first four bytes, so the message is looked for in `body` alone. -/
theorem decError_of_noNul (o1 o2 : Byte) (hbody : 1 ≤ body.length) (hc : c.toNat ≤ maxCode) (h : Claim.noNul body) :
    decError maxCode ([o1, o2] ++ be16 c ++ body) = .raised .msgNoterm := by
  have hlen : ¬ ([o1, o2] ++ be16 c ++ body).length < 5 := by simp [be16_length]; omega
  have hmsg : getstr ([o1, o2] ++ be16 c ++ body) 4 = none := by
    refine getstr_eq_none_iff.mpr fun k hk hzero => h ?_
    rw [List.getElem?_append_right (by simpa [be16_length] using hk)] at hzero
    exact List.mem_of_getElem? hzero
  simp only [decError, if_neg hlen, rd16_code, if_neg (Nat.not_lt.mpr hc), hmsg]

theorem decError_of_message (o1 o2 : Byte) {g tail : Bytes} (hc : c.toNat ≤ maxCode) (hg : Claim.noNul g) :
    decError maxCode ([o1, o2] ++ be16 c ++ (g ++ [0x00] ++ tail)) = .packet (.error c g) :=
  decError_eq_packet_iff.mpr ⟨c, g, tail, rfl, hc, hg, by simp, (List.append_assoc ([o1, o2] ++ be16 c) _ tail).symm⟩

end

/-- Settles O29: the length, the code and the message's terminator are checked in that order. -/
theorem errorDecoderChecksInOrder : Obligations.ErrorDecoderChecksInOrder := by
  intro s b hb
  have hd : decoderOf .wireError = some (decError 7) := rfl
  constructor
  · exact fun hlen => exec_of_decoder_raised (r := .errLen) hd hb (if_pos hlen)
  · rintro o1 o2 c body rfl hbody
    refine ⟨fun hc => exec_of_decoder_raised hd hb (decError_of_code_gt o1 o2 hbody hc),
      fun hc h => exec_of_decoder_raised hd hb (decError_of_noNul o1 o2 hbody hc h), ?_⟩
    rintro g tail hc rfl hg
    exact exec_of_decoder_packet hd hb (decError_of_message o1 o2 hc hg)

/-! ### DEC on the packets of each variant -/

/-- Settles O51: the opcode's row is the request row O26 speaks of. -/
theorem decOfARequestChecksInOrder : Obligations.DecOfARequestChecksInOrder := by
  rintro s op b rest (rfl | rfl) hb rfl
  · rw [exec_dec_of_word (i := .wireRrq) rfl hb]
    exact requestDecoderChecksInOrder .wireRrq 1 (.inl ⟨rfl, rfl⟩) s _ hb
  · rw [exec_dec_of_word (i := .wireWrq) rfl hb]
    exact requestDecoderChecksInOrder .wireWrq 2 (.inr ⟨rfl, rfl⟩) s _ hb

/-- Settles O52: DEC runs the Data row. -/
theorem decOfADataPacket : Obligations.DecOfADataPacket := by
  intro s rest hb
  rw [exec_dec_of_word (i := .wireData) rfl hb]
  obtain ⟨hshort, hpacket⟩ := dataDecoderTakesTheRestAsPayload s _ hb
  refine ⟨fun hlen => hshort (by simp; omega), ?_⟩
  rintro n p rfl
  exact hpacket 0x00 0x03 n p rfl

/-- Settles O53: DEC runs the Ack row. -/
theorem decOfAnAck : Obligations.DecOfAnAck := by
  intro s rest hb
  rw [exec_dec_of_word (i := .wireAck) rfl hb]
  obtain ⟨hlength, hpacket⟩ := ackDecoderIsStrict s _ hb
  refine ⟨fun hlen => hlength (by simpa using hlen), ?_⟩
  rintro n rfl
  exact hpacket 0x00 0x04 n rfl

/-- Settles O54: DEC runs the Error row; the checks are the same for either bound. -/
theorem decOfAnErrorPacket : Obligations.DecOfAnErrorPacket := by
  constructor
  · intro s rest hb
    rw [exec_dec_of_word (i := .wireError) rfl hb]
    obtain ⟨hshort, hchecks⟩ := errorDecoderChecksInOrder s _ hb
    refine ⟨fun hlen => hshort (by simp; omega), ?_⟩
    rintro c body rfl
    exact hchecks 0x00 0x05 c body rfl
  · intro c body hbody
    have hrow : decodePacket 8 ([0x00, 0x05] ++ be16 c ++ body) = decError 8 ([0x00, 0x05] ++ be16 c ++ body) :=
      decodePacket_of_word 8 .error (be16 c ++ body)
    rw [hrow]
    refine ⟨decError_of_code_gt _ _ hbody, decError_of_noNul _ _ hbody, ?_⟩
    rintro g tail hc rfl hg
    exact decError_of_message _ _ hc hg

/-- Settles O24: the dispatcher's length check comes before the opcode is read; two bytes pass it and are too short for a
request. -/
theorem decOfFewerThanTwoBytes : Obligations.DecOfFewerThanTwoBytes := by
  intro s b hb
  constructor
  · exact fun hlen => exec_of_decoder_raised rfl hb (decodePacket_of_length_lt_two _ hlen)
  · rintro rfl
    obtain ⟨hshort, -⟩ := decOfARequestChecksInOrder s 1 _ [] (.inl rfl) hb rfl
    exact hshort (by decide)

end Sys2Proof.Proofs.Decode
end

section
/-! PROOFS. The family 43_error_mapping.md: the mapping command (R174, R175) and `KIND_TEXT` (R173). -/

namespace Sys2Proof.Proofs.ErrorMapping

open Machine

/-! ### `KIND_TEXT` and the message of an error value (R172, R173) -/

/-- A kind that carries no context has one text. -/
theorem kindText_eq_nil_context {c : BitVec 3} (hc : c = 2 ∨ c = 3) (x : Bytes) : kindText c x = kindText c [] := by
  simp only [kindText, if_pos hc]

/-- Settles O35: both texts of a kind without a context are its text at the empty one. -/
theorem kindTextMeetsItsConstraints : Obligations.KindTextMeetsItsConstraints := fun c x y =>
  ⟨kindText_fits c x, fun hc => (kindText_eq_nil_context hc x).trans (kindText_eq_nil_context hc y).symm⟩

theorem message_of_unclassified (x : Bytes) : message 0 x = x := if_pos rfl

theorem message_of_kind {c : BitVec 3} (hc : c ≠ 0) (x : Bytes) : message c x = kindText c x := if_neg hc

/-! ### MAPERR (R174) -/

/-- MAPERR faults as soon as one of its two operand registers holds NONE (R210). -/
theorem exec_maperr_of_unset {s : State} (h : s.ev.cls = none ∨ s.ev.ctx = none) :
    exec .maperr s = .next (Claim.faulted s) :=
  Encode.exec_of_unset_pair (i := .maperr) rfl (by simpa [readReg] using h)

/-- MAPERR takes every class to the Error packet value of its wire code and its message, and leaves EV as it was. -/
theorem exec_maperr_of_error {s : State} {c : BitVec 3} {x : Bytes} (hc : s.ev.cls = some c) (hx : s.ev.ctx = some x) :
    exec .maperr s =
      .next { s with pv := Claim.errorPv (BitVec.ofNat 16 c.toNat) (message c x), status := 0x01 } := by
  simp only [exec, execMaperr, hc, hx, BitVec.ofNat_toNat]
  rfl

/-- Settles O34: an operand at NONE faults; otherwise the message alone tells the unclassified errors from the kinds. -/
theorem maperrMapsEveryErrorValue : Obligations.MaperrMapsEveryErrorValue := by
  intro s
  refine ⟨exec_maperr_of_unset, fun c x hc hx => ⟨?_, fun hkind => ?_⟩⟩
  · rintro rfl
    rw [exec_maperr_of_error hc hx, message_of_unclassified]
    rfl
  · rw [exec_maperr_of_error hc hx, message_of_kind hkind]

end Sys2Proof.Proofs.ErrorMapping
end

section
/-! PROOFS. The family 60_exceptions.md: how a command ends (R200, R201, R210), what stops a step or records a fault (R23,
R211), the context texts (R204), the idle block (R218) and the instances at reset (R216). -/

namespace Sys2Proof.Proofs.Exceptions

open Machine Registers Memory

/-! ### How a command ends (R200, R210) -/

/-- Settles O39: an unset operand ends the command in the recorded fault, set operands in an ending that records none. -/
theorem unsetOperandExactlyOnNone : Obligations.UnsetOperandExactlyOnNone := by
  refine fun i s => ⟨fun hunset => exec_of_not_ready ((operandsReady_eq_false_iff i s).mpr hunset), fun hr => ?_⟩
  obtain ⟨t, ht⟩ := exec_completes i s
  exact ⟨t, ht, exec_fault_of_ready hr ht⟩

/-- Settles O40: ENC and DEC finish or raise, MAPERR finishes. -/
theorem readyInstructionsComplete : Obligations.ReadyInstructionsComplete := by
  intro i s hr
  obtain ⟨t, ht⟩ := exec_completes i s
  refine ⟨t, ht, exec_fault_of_ready hr ht, ?_⟩
  obtain he | hd | rfl := isEnc_or_isDec_or_maperr i
  · obtain ⟨-, ⟨hst, -⟩ | ⟨-, hst, -, herror⟩⟩ := exec_enc_outcome he hr ht
    · exact .inl hst
    · exact .inr ⟨hst, herror⟩
  · obtain ⟨-, ⟨hst, -⟩ | ⟨hst, -, herror⟩⟩ := exec_dec_outcome hd hr ht
    · exact .inl hst
    · exact .inr ⟨hst, herror⟩
  · obtain ⟨-, -, hst, -⟩ := exec_maperr_outcome hr ht
    exact .inl hst

/-! ### Which commands raise which errors (R201) -/

/-- R203: the decode family has the codes 1 to 12. -/
theorem reasonCode_of_isDecodeReason {r : Reason} (h : isDecodeReason r = true) :
    1 ≤ (reasonCode r).toNat ∧ (reasonCode r).toNat ≤ 12 := by
  cases r with
  | encEcodeRange | encShortWrite => cases h
  | _ => simp [reasonCode]

/-- A raise of DEC or of a variant decoder has a reason of the decode family. -/
theorem exec_dec_raise {i : Instr} {s t : State} (hd : isDec i = true) (hr : Claim.ready i s) (h : exec i s = .next t)
    (hst : t.status = 0x03) : ∃ r, isDecodeReason r = true ∧ t = raiseDec r s := by
  obtain ⟨_, he, -⟩ | ⟨_, _, _, -, -, -, rfl⟩ | ⟨_, _, r, -, -, -, hreason, rfl⟩ | ⟨_, _, rfl, -⟩ :=
    exec_next_cases_of_ready hr h
  · simp [isEnc_of_dec hd] at he
  · simp at hst
  · exact ⟨r, hreason, rfl⟩
  · cases hd

/-- Only the ENC command of its own variant encodes a packet value (R121 to R125). -/
theorem eq_encOf_of_encPacket {i : Instr} {s : State} {p : Packet} (h : encPacket i s = some p) : i = Claim.encOf p := by
  cases i with
  | encRrq | encWrq | encData | encError =>
    obtain ⟨_, -, hp⟩ := Option.bind_eq_some_iff.mp h
    obtain ⟨_, -, rfl⟩ := Option.map_eq_some_iff.mp hp
    rfl
  | encAck =>
    obtain ⟨_, -, rfl⟩ := Option.map_eq_some_iff.mp h
    rfl
  | _ => cases h

/-- A raise of an ENC command is a short write, or ENC.ERROR's range error. -/
theorem exec_enc_raise {i : Instr} {s t : State} (he : isEnc i = true) (hr : Claim.ready i s) (h : exec i s = .next t)
    (hst : t.status = 0x03) : t = raiseEnc .encShortWrite s ∨ (i = .encError ∧ t = raiseEnc .encEcodeRange s) := by
  obtain ⟨p, hp, rfl⟩ := exec_enc_of_ready he hr h
  obtain ⟨-, e⟩ | ⟨-, -, e⟩ | ⟨c, g, rfl, -, e⟩ := encOutcome_cases p s
  · simp [e] at hst
  · exact .inl e
  · exact .inr ⟨eq_encOf_of_encPacket hp, e⟩

/-- Settles O41: a raise of DEC has class 4 and a decode reason, one of ENC class 0 and one of its two reasons. -/
theorem commandsRaiseOnlyTheirErrors : Obligations.CommandsRaiseOnlyTheirErrors := by
  intro i s t hr h hst
  refine ⟨?_, ?_, fun hd => ?_, ?_, fun hi => ?_⟩
  · rintro rfl
    obtain ⟨-, ⟨hfinish, -⟩ | ⟨hack, -⟩⟩ := exec_enc_outcome rfl hr h
    · simp [hfinish] at hst
    · exact hack rfl
  · rintro rfl
    obtain ⟨-, -, hfinish, -⟩ := exec_maperr_outcome hr h
    simp [hfinish] at hst
  · obtain ⟨r, hreason, rfl⟩ := exec_dec_raise hd hr h hst
    exact ⟨congrArg some (Decode.kindCode_of_isDecodeReason hreason), _, rfl, reasonCode_of_isDecodeReason hreason⟩
  · rintro rfl
    obtain rfl | ⟨-, rfl⟩ := exec_enc_raise rfl hr h hst
    · exact ⟨rfl, .inr rfl⟩
    · exact ⟨rfl, .inl rfl⟩
  · have he : isEnc i = true := by obtain rfl | rfl | rfl := hi <;> rfl
    obtain rfl | ⟨rfl, -⟩ := exec_enc_raise he hr h hst
    · exact ⟨rfl, rfl⟩
    · simp at hi

/-! ### What stops a step (R23, R211, R237) -/

theorem startCommand_completes (c : Byte) (s : State) : ∃ t, startCommand c s = .next t := by
  cases hc : decodeCommand c with
  | none => exact ⟨_, startCommand_of_none hc s⟩
  | some i =>
    rw [startCommand_of_some hc]
    exact exec_completes i _

/-- An action that the host has always takes effect. -/
theorem perform_of_fits {a : Action} (h : a.fits = true) (s : State) : ∃ t, perform a s = .next t := by
  cases a with
  | writeCmd c => exact startCommand_completes c s
  | writeIn b | writePvFname b | writePvMode b | writePvPayload b | writePvMsg b | writeEvCtx b => exact ⟨_, if_pos h⟩
  | _ => exact ⟨_, rfl⟩

/-- Only a write of a byte sequence can exceed the capacity, and it is refused. -/
theorem perform_of_not_fits {a : Action} (h : a.fits = false) (s : State) : perform a s = .refused .overCapacity := by
  cases a with
  | writeIn b | writePvFname b | writePvMode b | writePvPayload b | writePvMsg b | writeEvCtx b =>
    exact if_neg (Bool.eq_false_iff.mp h)
  | _ => cases h

/-- A step answers a next state, or refuses a host write that exceeds the capacity. -/
theorem step_cases (s : State) :
    (∃ t, step s = .next t) ∨
      (step s = .refused .overCapacity ∧ ∃ a rest, s.pending = a :: rest ∧ a.fits = false) := by
  cases hp : s.pending with
  | nil => exact .inl ⟨s, step_of_nil hp⟩
  | cons a rest =>
    rw [step_of_cons hp]
    cases ha : a.fits with
    | true => exact .inl (perform_of_fits ha _)
    | false => exact .inr ⟨perform_of_not_fits ha _, a, rest, rfl, ha⟩

/-! ### What records a fault (R210) -/

/-- An instruction leaves the record of faults as it was, or one of its operand registers holds NONE. -/
theorem exec_fault_cases {i : Instr} {s t : State} (h : exec i s = .next t) :
    t.fault = s.fault ∨ (t.fault = some .unsetOperand ∧ ∃ r ∈ operands i, readReg r s = none) := by
  cases ho : operandsReady i s with
  | true => exact .inl (exec_fault_of_ready ((ready_iff i s).mpr ho) h)
  | false =>
    rw [exec_of_not_ready ho] at h
    cases h
    exact .inr ⟨rfl, (operandsReady_eq_false_iff i s).mp ho⟩

/-- No command reads `CMD` (R82). -/
theorem ne_cmd_of_mem_operands {i : Instr} {r : Reg} (h : r ∈ operands i) : r ≠ .cmd := by
  rintro rfl
  revert h
  cases i <;> decide

theorem readReg_setCmd {r : Reg} (hr : r ≠ .cmd) (s : State) (c : Option Byte) :
    readReg r { s with cmd := c } = readReg r s := by
  cases r with
  | cmd => exact absurd rfl hr
  | _ => rfl

theorem startCommand_fault_cases {c : Byte} {s t : State} (h : startCommand c s = .next t) :
    t.fault = s.fault ∨
      (t.fault = some .unsetOperand ∧ ∃ i, decodeCommand c = some i ∧ ∃ r ∈ operands i, readReg r s = none) := by
  cases hc : decodeCommand c with
  | none =>
    rw [startCommand_of_none hc] at h
    cases h
    exact .inl rfl
  | some i =>
    rw [startCommand_of_some hc] at h
    obtain hkept | ⟨hfault, r, hr, hunset⟩ := exec_fault_cases h
    · exact .inl hkept
    · rw [readReg_setCmd (ne_cmd_of_mem_operands hr)] at hunset
      exact .inr ⟨hfault, i, rfl, r, hr, hunset⟩

/-- An action that starts no command leaves the record of faults as it was. -/
theorem perform_keeps_fault {a : Action} {s t : State} (ha : ∀ c, a ≠ .writeCmd c) (h : perform a s = .next t) :
    t.fault = s.fault := by
  cases a with
  | writeCmd c => exact absurd rfl (ha c)
  | writeIn b | writePvFname b | writePvMode b | writePvPayload b | writePvMsg b | writeEvCtx b =>
    obtain ⟨-, rfl⟩ := storeBytes_eq_next_iff.mp h
    rfl
  | read r =>
    cases h
    exact (hostAccess_observe r s).fault
  | _ =>
    cases h
    rfl

/-- A step leaves the record of faults as it was, or starts a command one of whose operand registers holds NONE. -/
theorem step_fault_cases {s t : State} (h : step s = .next t) :
    t.fault = s.fault ∨
      (t.fault = some .unsetOperand ∧ ∃ c rest i, s.pending = .writeCmd c :: rest ∧ decodeCommand c = some i ∧
        ∃ r ∈ operands i, readReg r s = none) := by
  cases hp : s.pending with
  | nil =>
    rw [step_of_nil hp] at h
    cases h
    exact .inl rfl
  | cons a rest =>
    rw [step_of_cons hp] at h
    by_cases ha : ∃ c, a = .writeCmd c
    · obtain ⟨c, rfl⟩ := ha
      obtain hkept | ⟨hfault, i, hi, r, hr, hunset⟩ := startCommand_fault_cases h
      · exact .inl hkept
      · rw [readReg_setPending] at hunset
        exact .inr ⟨hfault, c, rest, i, rfl, hi, r, hr, hunset⟩
    · have hkept := perform_keeps_fault (not_exists.mp ha) h
      exact .inl hkept

/-- UNSET_OPERAND is the only model fault there is to record. -/
theorem eq_unsetOperand_of_ne_none {f : Option ModelFault} (h : f ≠ none) : f = some .unsetOperand := by
  obtain ⟨⟨⟩, rfl⟩ := Option.ne_none_iff_exists'.mp h
  rfl

/-- Settles O48: the two endings of a step, and what a step can do to the record of faults. -/
theorem stepStopsOnlyAsTheSpecSays : Obligations.StepStopsOnlyAsTheSpecSays := by
  refine fun s => ⟨fun f hf => ?_, fun r hr => ?_, fun t ht hnofault hfault => ?_, fun t ht hrecorded => ?_⟩
  · obtain ⟨t, ht⟩ | ⟨hrefused, -⟩ := step_cases s
    · cases ht.symm.trans hf
    · cases hrefused.symm.trans hf
  · obtain ⟨t, ht⟩ | ⟨hrefused, hlong⟩ := step_cases s
    · cases ht.symm.trans hr
    · cases hrefused.symm.trans hr
      exact ⟨rfl, hlong⟩
  · obtain hkept | ⟨-, hcommand⟩ := step_fault_cases ht
    · exact absurd (hkept.trans hnofault) hfault
    · exact hcommand
  · obtain hkept | ⟨hfault, -⟩ := step_fault_cases ht
    · exact hkept
    · exact hfault.trans (eq_unsetOperand_of_ne_none hrecorded).symm

/-! ### The context texts (R204) -/

/-- No text of the default table holds `0x00`: the fixed parts have none, and a number is spelled in digits. -/
theorem zero_not_mem_defaultReasonText (r : Reason) : (0x00 : Byte) ∉ defaultReasonText r := by
  have hdigits (v : Nat) : (0x00 : Byte) ∉ decimal v := zero_not_mem_decimalDigits _ v [] List.not_mem_nil
  cases r with
  | unknownOpcode op => exact List.not_mem_append (by decide) (hdigits op.toNat)
  | errCodeRange c => exact List.not_mem_append (by decide) (hdigits c.toNat)
  | _ => decide

/-- The default table's text for an unknown opcode names it: the decimal spelling is injective. -/
theorem defaultReasonText_unknownOpcode_injective {op op' : Half}
    (h : defaultReasonText (.unknownOpcode op) = defaultReasonText (.unknownOpcode op')) : op = op' :=
  BitVec.eq_of_toNat_eq (decimal_injective (List.append_cancel_left h))

theorem defaultReasonText_fits (r : Reason) : (defaultReasonText r).length ≤ Config.bufMax :=
  (defaultReasonText_length_le r).trans (Nat.le_trans (by decide) bufMax_ge)

/-- Settles O36: the parameter carries its constraints, and the default table meets each of them. -/
theorem reasonTextMeetsItsConstraints : Obligations.ReasonTextMeetsItsConstraints :=
  ⟨fun r => ⟨Config.reasonTexts.noTerminator r, reasonText_fits r⟩, Config.reasonTexts.namesTheOpcode,
    ⟨defaultReasonText, fun _ _ => defaultReasonText_unknownOpcode_injective, zero_not_mem_defaultReasonText,
      defaultReasonText_fits⟩, rfl⟩

/-! ### The idle block and the instances at reset (R218, R216) -/

/-- Settles O12: an empty queue leaves a step nothing to apply. -/
theorem idleBlockHoldsItsRegisters : Obligations.IdleBlockHoldsItsRegisters := fun _ => step_of_nil

/-- Each state of the system after reset is the reset state, with its own number as its stream. -/
theorem eq_reset_of_systemReset {k : Nat} {s : State} (h : systemReset.instances[k]? = some s) :
    s = { State.reset with stream := k } := by
  rw [systemReset, List.getElem?_map] at h
  obtain ⟨j, hj, rfl⟩ := Option.map_eq_some_iff.mp h
  obtain ⟨-, rfl⟩ := List.getElem?_eq_some_iff.mp hj
  rw [List.getElem_range]

/-- The stream is no register (R20, R216). -/
theorem readReg_setStream (r : Reg) (s : State) (k : Nat) : readReg r { s with stream := k } = readReg r s := by
  cases r <;> rfl

/-- Settles O50: `INSTANCES` is at least 1, and the list holds one reset state for each number below it. -/
theorem instancesStartAtReset : Obligations.InstancesStartAtReset := by
  constructor
  · simp [systemReset, Config.instances]
  · intro k s h
    obtain rfl := eq_reset_of_systemReset h
    refine ⟨rfl, rfl, fun r hr => ?_⟩
    rw [readReg_setStream]
    exact readReg_applyReset hr State.reset

end Sys2Proof.Proofs.Exceptions
end

section
/-! PROOFS. The family 70_reset_and_hazards.md: what the reset action leaves besides the block's registers (R230). -/

namespace Sys2Proof.Proofs.ResetAndHazards

open Machine

/-- The reset acts on the state whose queue it has just been taken off (R230, R238). -/
theorem step_of_reset {s : State} {rest : List Action} (h : s.pending = .reset :: rest) :
    step s = .next (applyReset { s with pending := rest }) :=
  step_of_cons h

/-- Settles O55: `applyReset` copies each of the model's own fields, so only the queue is shorter, by the reset itself. -/
theorem resetKeepsWhatIsNotTheBlocks : Obligations.ResetKeepsWhatIsNotTheBlocks :=
  fun _ _ h => step_of_reset h

end Sys2Proof.Proofs.ResetAndHazards
end

section
/-! PROOFS. The statements the spec infers from its own rules: the round trip (R151), the totality and the bounds of DEC
(R149), how a codec failure is reported (R174, R176), the table's words and opcodes (R75, R76, R80), the inverses of the
field primitives (R101, R103) and the Ack that always fits (R124). -/

namespace Sys2Proof.Proofs.Derived

open Machine Registers Encoding Encode Decode ErrorMapping Exceptions

/-! ### Round trip (R151) -/

theorem isField_iff (b : Bytes) : isField b = true ↔ 1 ≤ b.length ∧ Claim.noNul b := by
  simp [isField, Claim.noNul]

theorem valid_iff (p : Packet) : p.valid = true ↔ p.fieldsOk = true ∧ p.encodedLength ≤ Config.bufMax := by
  simp [Packet.valid]

/-- R25: the code of a valid Error is one that ENC.ERROR accepts. -/
theorem code_le_of_fieldsOk {p : Packet} (h : p.fieldsOk = true) : ∀ c g, p = .error c g → c.toNat ≤ 7 := by
  rintro c g rfl
  simp only [Packet.fieldsOk, Bool.and_eq_true, decide_eq_true_eq] at h
  exact h.1

/-- R25 asks of a packet value's fields at least what the decoder accepts: the strings of a request are the same, and no
valid code exceeds either value of `ERR_DECODE_MAX`. -/
theorem accepted_of_fieldsOk {maxCode : Nat} (hmax : 7 ≤ maxCode) {p : Packet} (h : p.fieldsOk = true) :
    Claim.accepted maxCode p := by
  cases p with
  | rrq f m | wrq f m =>
    simp only [Packet.fieldsOk, Bool.and_eq_true, isField_iff] at h
    obtain ⟨⟨hf, hf0⟩, hm, hm0⟩ := h
    exact ⟨hf, hf0, hm, hm0⟩
  | data n q | ack n => trivial
  | error c g =>
    refine ⟨(code_le_of_fieldsOk h c g rfl).trans hmax, ?_⟩
    simp only [Packet.fieldsOk, Bool.and_eq_true] at h
    simpa [Claim.noNul] using h.2

/-- The decoder inverts the layout: it is the case of no tail of what the decoder accepts. -/
theorem decodePacket_layout {maxCode : Nat} (hmax : 7 ≤ maxCode) {p : Packet} (h : p.fieldsOk = true) :
    decodePacket maxCode (Claim.layout p) = .packet p :=
  decodePacket_eq_packet_iff.mpr ⟨accepted_of_fieldsOk hmax h, [], (List.append_nil _).symm, fun _ => rfl⟩

/-- Settles O33: ENC leaves the packet value's layout in `OUT`, and the decoder inverts the layout for either bound. -/
theorem encodeThenDecodeGivesThePacketBack : Obligations.EncodeThenDecodeGivesThePacketBack := by
  constructor
  · intro p s hvalid held
    obtain ⟨hfields, hfits⟩ := (valid_iff p).mp hvalid
    have hdec : decodePacket Config.errDecodeMax (Claim.layout p) = .packet p := decodePacket_layout le_rfl hfields
    exact ⟨_, _, exec_encOf_of_fits held (code_le_of_fieldsOk hfields) hfits,
      exec_of_decoder_packet rfl rfl hdec, rfl, rfl⟩
  · intro maxCode p hmax hvalid
    obtain ⟨hfields, -⟩ := (valid_iff p).mp hvalid
    rw [packetBytes_eq_layout]
    exact decodePacket_layout (by omega) hfields

/-! ### DEC on every input (R149) -/

/-- Settles O31: the decoder answers a packet value or one of the reasons 1 to 12, which all have class 4. -/
theorem decAlwaysEndsClassified : Obligations.DecAlwaysEndsClassified := by
  intro s b hb
  cases h : decodePacket Config.errDecodeMax b with
  | packet p => exact .inl ⟨p, exec_of_decoder_packet rfl hb h⟩
  | raised r =>
    obtain ⟨hlow, hhigh⟩ := reasonCode_of_isDecodeReason (decodePacket_raised h)
    exact .inr ⟨_, _, hlow, hhigh, exec_of_decoder_raised rfl hb h⟩
  | outOfBounds => exact absurd h (decodePacket_ne_outOfBounds _ b)

/-- Settles O32: an instruction completes, and a step completes or refuses a write. -/
theorem nothingReadsPastTheEnd : Obligations.NothingReadsPastTheEnd := by
  constructor
  · intro i s hfault
    obtain ⟨t, ht⟩ := exec_completes i s
    cases ht.symm.trans hfault
  · intro s hfault
    obtain ⟨t, ht⟩ | ⟨hrefused, -⟩ := step_cases s
    · cases ht.symm.trans hfault
    · cases hrefused.symm.trans hfault

/-! ### ENC.ERROR after MAPERR (R174) -/

theorem error_of_ready_maperr {s : State} (hr : Claim.ready .maperr s) :
    ∃ c x, s.ev.cls = some c ∧ s.ev.ctx = some x := by
  have hcls := hr .evClass (by simp [operands])
  have hctx := hr .evCtx (by simp [operands])
  simp only [readReg, ne_eq, Option.map_eq_none_iff] at hcls hctx
  obtain ⟨c, hc⟩ := Option.ne_none_iff_exists'.mp hcls
  obtain ⟨x, hx⟩ := Option.ne_none_iff_exists'.mp hctx
  exact ⟨c, x, hc, hx⟩

/-- R170: the wire code of an error class is at most 7, so that no class is out of ENC.ERROR's range. -/
theorem wireCode_le (c : BitVec 3) : (BitVec.ofNat 16 c.toNat).toNat ≤ 7 := by
  have hc := c.isLt
  rw [BitVec.toNat_ofNat]
  omega

/-- ENC.ERROR of a code in range finishes or is a short write (R125). -/
theorem exec_encError_of_code_le {c : Half} {g : Bytes} {s : State} (hecode : s.pv.ecode = some c)
    (hmsg : s.pv.msg = some g) (hc : c.toNat ≤ 7) : ∃ u, exec .encError s = .next u ∧ u.ev.reason ≠ some 13 := by
  obtain ⟨-, hset⟩ := encErrorEncodesAnErrorPacket s
  obtain ⟨-, hfinish, hshort⟩ := hset c g hecode hmsg
  rcases Nat.lt_or_ge Config.bufMax (5 + g.length) with hlong | hfits
  · exact ⟨_, hshort hc hlong, by simp [Claim.encFails]⟩
  · exact ⟨_, hfinish hc hfits, by simp [Claim.encodes]⟩

/-- Settles O37: MAPERR leaves an Error packet value whose code is a class, and a class is in ENC.ERROR's range. -/
theorem encErrorAfterMaperrIsNeverOutOfRange : Obligations.EncErrorAfterMaperrIsNeverOutOfRange := by
  intro s t hr h
  obtain ⟨c, x, hc, hx⟩ := error_of_ready_maperr hr
  cases (exec_maperr_of_error hc hx).symm.trans h
  exact exec_encError_of_code_le rfl rfl (wireCode_le c)

/-! ### Reporting a codec failure (R176) -/

/-- What a raise leaves in EV is what MAPERR maps: the reason's class and its context text. -/
theorem exec_maperr_of_raised {t : State} {r : Reason} (hcls : t.ev.cls = some (kindCode (reasonKind r)))
    (hctx : t.ev.ctx = some (reasonText r)) :
    ∃ u, exec .maperr t = .next u ∧ u.pv.op = some 5 ∧
      (kindCode (reasonKind r) = 4 → u.pv.ecode = some 4 ∧ u.pv.msg = some (kindText 4 (reasonText r))) ∧
      (kindCode (reasonKind r) = 0 → u.pv.ecode = some 0 ∧ u.pv.msg = some (reasonText r)) := by
  refine ⟨_, exec_maperr_of_error hcls hctx, rfl, fun h4 => ?_, fun h0 => ?_⟩
  · rw [h4, message_of_kind (by decide)]
    exact ⟨rfl, rfl⟩
  · rw [h0, message_of_unclassified]
    exact ⟨rfl, rfl⟩

/-- Settles O38: a decode failure has class 4, an encode failure class 0, and MAPERR never fails. -/
theorem maperrReportsTheCodecFailure : Obligations.MaperrReportsTheCodecFailure := by
  intro i s t hr h hst
  obtain he | hd | rfl := isEnc_or_isDec_or_maperr i
  · have hraise : ∃ r, kindCode (reasonKind r) = 0 ∧ t = raiseEnc r s := by
      obtain e | ⟨-, e⟩ := exec_enc_raise he hr h hst
      · exact ⟨.encShortWrite, rfl, e⟩
      · exact ⟨.encEcodeRange, rfl, e⟩
    obtain ⟨r, hclass, rfl⟩ := hraise
    obtain ⟨u, hu, hop, -, hverbatim⟩ := exec_maperr_of_raised (t := raiseEnc r s) rfl rfl
    refine ⟨r, u, rfl, hu, hop, fun hd => ?_, fun _ => hverbatim hclass⟩
    simp [isEnc_of_dec hd] at he
  · obtain ⟨r, hreason, rfl⟩ := exec_dec_raise hd hr h hst
    obtain ⟨u, hu, hop, hkind, -⟩ := exec_maperr_of_raised (t := raiseDec r s) rfl rfl
    refine ⟨r, u, rfl, hu, hop, fun _ => hkind (kindCode_of_isDecodeReason hreason), fun he => ?_⟩
    simp [isEnc_of_dec hd] at he
  · obtain ⟨-, -, hfinish, -⟩ := exec_maperr_outcome hr h
    simp [hfinish] at hst

/-! ### The table's words and the wire opcodes (R75, R76, R80) -/

/-- Settles O1: each word written out is the encoder's word of its row, and that is read back with nothing left over. -/
theorem tableWordsDecodeToTheirRows : Obligations.TableWordsDecodeToTheirRows :=
  ⟨decode_encode .encRrq [], decode_encode .encWrq [], decode_encode .encData [], decode_encode .encAck [],
    decode_encode .encError [], decode_encode .dec [], decode_encode .maperr [], decode_encode .wireRrq [],
    decode_encode .wireWrq [], decode_encode .wireData [], decode_encode .wireAck [], decode_encode .wireError []⟩

/-- Settles O3: each of the five opcodes is its row's word, and every other one selects no variant. -/
theorem onlyOpcodesOneToFiveDecode : Obligations.OnlyOpcodesOneToFiveDecode := by
  intro op b
  refine ⟨?_, ?_, ?_, ?_, ?_, fun hillegal => ?_⟩
  · rintro rfl
    exact decode_encode .wireRrq b
  · rintro rfl
    exact decode_encode .wireWrq b
  · rintro rfl
    exact decode_encode .wireData b
  · rintro rfl
    exact decode_encode .wireAck b
  · rintro rfl
    exact decode_encode .wireError b
  · rw [decode_wire_be16, (decodeOpcode_eq_none_iff op).mpr hillegal]

/-! ### A table row's word placed for the next step -/

/-- A table row's word is a command code of 8 bits or the wire opcode, of 16 bits, of a packet that decodes. -/
theorem decodeTableWord_cases {nbits w : Nat} {i : Instr} (h : decodeTableWord nbits w = some i) :
    (nbits = 8 ∧ decodeCommand (BitVec.ofNat 8 w) = some i) ∨
    (nbits = 16 ∧ ∃ rest, decode .wire (zeroPacket (BitVec.ofNat 16 w)) = .ok (i, rest)) := by
  simp only [decodeTableWord] at h
  split at h
  · next h8 =>
    split at h
    · next j rest hdecode =>
      cases h
      obtain ⟨hc, -⟩ := decode_command_eq_ok_iff.mp hdecode
      exact .inl ⟨h8, hc⟩
    · cases h
  · split at h
    · next h16 =>
      split at h
      · next j rest hdecode =>
        cases h
        exact .inr ⟨h16, rest, hdecode⟩
      · cases h
    · cases h

/-- Settles O6: a command code is written to `CMD` and starts its command; a wire opcode begins the packet that DEC is
started on, and DEC runs the row of the opcode. -/
theorem placedWordIsTheOneRun : Obligations.PlacedWordIsTheOneRun := by
  intro s nbits w i h
  obtain ⟨rfl, hc⟩ | ⟨rfl, rest, hpacket⟩ := decodeTableWord_cases h
  · exact ⟨_, step_of_legal_command (s := s.withFetchWord 8 w) rfl hc⟩
  · refine ⟨0x08, (step_of_legal_command (s := s.withFetchWord 16 w) (i := .dec) rfl rfl).trans ?_⟩
    exact exec_dec_eq_exec_row rfl hpacket

/-! ### The inverses of the field primitives (R101, R103) -/

/-- Settles O17: the field is read where it was written, and the string up to the terminator written after it. -/
theorem fieldPrimitivesInvert : Obligations.FieldPrimitivesInvert :=
  ⟨rd16_append_be16, fun s p t hs => getstr_putstr p s t hs⟩

/-! ### ENC.ACK (R124) -/

/-- R124, R8: the four bytes of an Ack are fewer than the 516 that `BUF_MAX` is at least. -/
theorem encodedLength_ack_le (n : Half) : (Packet.ack n).encodedLength ≤ Config.bufMax :=
  le_trans (by simp [Packet.encodedLength]) bufMax_ge

theorem operandsReady_encAck_of_unset {s : State} (h : s.pv.block = none) : operandsReady .encAck s = false :=
  (operandsReady_eq_false_iff .encAck s).mpr ⟨.pvBlock, by simp [operands], by simp [readReg, h]⟩

/-- Settles O21: BLOCK is the only operand, and nothing but its being unset keeps an Ack from being emitted. -/
theorem encAckEncodesAnAck : Obligations.EncAckEncodesAnAck := by
  intro s
  constructor
  · exact fun h => exec_of_not_ready (operandsReady_encAck_of_unset h)
  · exact fun n hn => exec_encOf_of_fits (p := .ack n) hn nofun (encodedLength_ack_le n)

end Sys2Proof.Proofs.Derived
end
